-- ==== Sys2Proof/Word.lean ====
section
/-! DEFINITION. The word types of the RTC3W controller (00_scope.md R9, R15; 30_encoding.md R90) and the record of eight
bytes used for the clock image, the burst buffer and the BURSTWR payload (10_state.md R42). -/

namespace Sys2Proof

/-- A data byte or command byte (R9). -/
abbrev Byte := BitVec 8

/-- A host request word (R90). -/
abbrev ReqWord := BitVec 80

/-- One wire command with its data bytes: the command byte in bits 7:0, data byte `k` in bits `8k+15 : 8k+8`.
DESIGN CHOICE (log 4): the spec has no such word; it lays a wire session's bytes out in the order they are sent. -/
abbrev WireWord := BitVec 72

/-- Eight bytes, `b0` first: seconds, minutes, hours, day-of-month, month, day-of-week, year, control (R42, R76). -/
structure Bytes8 where
  b0 : Byte
  b1 : Byte
  b2 : Byte
  b3 : Byte
  b4 : Byte
  b5 : Byte
  b6 : Byte
  b7 : Byte
  deriving DecidableEq, Repr

end Sys2Proof
end

