-- ==== Sys2Proof/Config.lean ====
section
/-! DEFINITION. The parameters of the spec (00_scope.md section 4) and the names they speak about: hold durations, pad
events, the device oracle, the image layout's record type. What the spec leaves open is opaque: no proof can see its value. -/

namespace Sys2Proof

/-- The five named hold durations (R11). -/
inductive HoldParam where
  | ceSu   -- T_CE_SU: after select is activated
  | ceOff  -- T_CE_OFF: after select is deactivated
  | dsu    -- T_DSU: data driven before the clock rises
  | ckh    -- T_CKH: clock high
  | ckl    -- T_CKL: clock low
  deriving DecidableEq, Repr

/-- Data-line direction: `IN` = 0, `OUT` = 1 (R20, R38). -/
inductive IoDir where
  | input
  | output
  deriving DecidableEq, Repr

/-- The events of the pad trace (R20), one constructor per primitive. -/
inductive PadEvent where
  | ce (b : Bool)
  | sclkOe
  | sclk (b : Bool)
  | ioDir (d : IoDir)
  | io (b : Bool)
  | hold (p : HoldParam)
  | sample (v : Bool)
  deriving DecidableEq, Repr

/-- The pad trace, oldest event first (R20). -/
abbrev PadTrace := List PadEvent

/-- A bit field of the clock image: bits `lo + width - 1 : lo` of image byte `byte` (R14). -/
structure BitField where
  byte  : Fin 8
  lo    : Nat
  width : Nat
  deriving DecidableEq, Repr

/-- The parameter `IMAGE_LAYOUT` (R14, R180 to R184): where the digits and flags stand in the image. -/
structure ImageLayout where
  secUnits   : BitField
  secTens    : BitField
  minUnits   : BitField
  minTens    : BitField
  hourUnits  : BitField
  hourTens24 : BitField
  hourTens12 : BitField
  ch         : BitField
  hr12       : BitField
  pm         : BitField
  wp         : BitField
  deriving DecidableEq, Repr

namespace Config

/-- The device oracle (R27, R28): the level the device drives on IO at the pending `SAMPLE`. It is a free value, under no
law. Its arguments are the traces that earlier resets cut off (log 3) and the trace so far; the pending `SAMPLE`
itself is implied, since the oracle is consulted nowhere else (log 2). -/
opaque deviceOracle : List PadTrace → PadTrace → Bool

/-- `DEV_MIN_*` (R27): the device's minimum for each hold, in nanoseconds (log 9). -/
opaque devMinHold : HoldParam → Nat

/-- How far each hold parameter lies above the least value R11 allows (log 9). -/
opaque holdSlack : HoldParam → Nat

/-- `F_CLK` in hertz (R13, log 9). No rule depends on it. -/
opaque fClk : Nat

/-- `CE_ACTIVE_HIGH` (R12): the default value, 1. PRESUMED by the spec itself (GK2, log 10). -/
def ceActiveHigh : Bool := true

end Config
end Sys2Proof
end

