-- ==== Sys2Proof/Syntax.lean ====
section
/-! DEFINITION. The instructions: one constructor per row of spec/opcode_table.json, the eight requests of 30_encoding.md
R92 and R98 and the seven wire-command classes of R102; and the two forms in which one is presented to the block. -/

namespace Sys2Proof

/-- One operation of the block. The requests carry the operands of R96. A wire command carries the variable bits of its
command byte and the data bytes its session writes (R104); a read command has none (log 4). -/
inductive Instr where
  | beginSession                                   -- BEGIN
  | endSession                                     -- END
  | wrbyte (v : Byte) (rel : Bool)                 -- WRBYTE, WRBYTE.REL
  | rdbyte                                         -- RDBYTE
  | rdreg (a : Byte)                               -- RDREG
  | wrreg (a : Byte) (v : Byte)                    -- WRREG
  | burstrd                                        -- BURSTRD
  | burstwr (b : Bytes8)                           -- BURSTWR
  | cmdBurstRd                                     -- CMD_BURST_RD, 0xBF
  | cmdBurstWr (b : Bytes8)                        -- CMD_BURST_WR, 0xBE
  | cmdClkRd (reg : BitVec 5)                      -- CMD_CLK_RD, 0x81..0xBD odd
  | cmdClkWr (reg : BitVec 5) (v : Byte)           -- CMD_CLK_WR, 0x80..0xBC even
  | cmdRamRd (reg : BitVec 5)                      -- CMD_RAM_RD, 0xC1..0xFF odd
  | cmdRamWr (reg : BitVec 5) (v : Byte)           -- CMD_RAM_WR, 0xC0..0xFE even
  | cmdNomark (bits : BitVec 7) (v : Byte)         -- CMD_NOMARK, 0x00..0x7F
  deriving DecidableEq, Repr

/-- What is presented to the block: a host request word on `req_word` (R32, R90), or a wire command with its data bytes
(DESIGN CHOICE, log 4: the form in which the model runs a wire-command row by itself). -/
inductive Presented where
  | req (w : ReqWord)
  | wire (w : WireWord)
  deriving DecidableEq, Repr

end Sys2Proof
end

