-- ==== Sys2Proof/WellFormed.lean ====
section
/-! DEFINITION. Which instructions are well formed: those some word of 30_encoding.md spells. -/

namespace Sys2Proof

/-- Register index 31 of the clock area spells the burst commands, so `CMD_CLK_RD` and `CMD_CLK_WR` have `REG` 0..30
(R70, R102). A `CMD_NOMARK` byte with bit 0 set reads, and then has no data byte to write (R104, log 6). Every other
operand value is admitted (R78, R95, R98, R151). -/
def Instr.wellFormed : Instr → Bool
  | .beginSession | .endSession | .wrbyte _ _ | .rdbyte => true
  | .rdreg _ | .wrreg _ _ | .burstrd | .burstwr _ => true
  | .cmdBurstRd | .cmdBurstWr _ => true
  | .cmdClkRd reg => reg != 31#5
  | .cmdClkWr reg _ => reg != 31#5
  | .cmdRamRd _ | .cmdRamWr _ _ => true
  | .cmdNomark bits v => !bits.getLsbD 0 || v == 0#8

end Sys2Proof
end

