-- ==== Sys2Proof/Decode.lean ====
section
/-! DEFINITION. Decoding of request words (30_encoding.md R91 to R97) and of wire commands (R100 to R104), total on every
word and rejecting by name; the encoder (R98, R109); and the fixed names the host reads them through. -/

namespace Sys2Proof

/-! ## Command bytes (format CMD) -/

/-- The command classes of R102. -/
inductive CmdClass where
  | burstRd | burstWr | clkRd | clkWr | ramRd | ramWr | nomark
  deriving DecidableEq, Repr

/-- One row of R102: a byte `v` is in the class when `v & mask = bits`. -/
structure CmdRow where
  cls  : CmdClass
  bits : Byte
  mask : Byte
  deriving DecidableEq, Repr

/-- The rows of R102, in the order they are tried. -/
def cmdRows : List CmdRow :=
  [⟨.burstRd, 0xBF, 0xFF⟩, ⟨.burstWr, 0xBE, 0xFF⟩, ⟨.clkRd, 0x81, 0xC1⟩, ⟨.clkWr, 0x80, 0xC1⟩,
   ⟨.ramRd, 0xC1, 0xC1⟩, ⟨.ramWr, 0xC0, 0xC1⟩, ⟨.nomark, 0x00, 0x80⟩]

def CmdRow.matchesByte (r : CmdRow) (v : Byte) : Bool := (v &&& r.mask) == r.bits

/-- The class of a command byte: the first row that matches (R102). Every byte has one, so the default is never used. -/
def classify (v : Byte) : CmdClass :=
  match cmdRows.find? (fun r => r.matchesByte v) with
  | some r => r.cls
  | none => .nomark

/-- The number of data bytes a session carries, by its command's class (R104). A `CMD_NOMARK` byte runs the
single-register sequence (R177), so it carries one. -/
def CmdClass.dataBytes : CmdClass → Nat
  | .burstRd | .burstWr => 8
  | .clkRd | .clkWr | .ramRd | .ramWr | .nomark => 1

/-- The fields of a command byte (R100). -/
def cmdMark (v : Byte) : Bool := v.getLsbD 7
def cmdRc (v : Byte) : Bool := v.getLsbD 6
def cmdReg (v : Byte) : BitVec 5 := v.extractLsb' 1 5
def cmdRdBit (v : Byte) : Bool := v.getLsbD 0

/-- The command byte with mark 1, area `rc`, register `reg` and read bit `rd` (R100). -/
def cmdByte (rc : Bool) (reg : BitVec 5) (rd : Bool) : Byte :=
  BitVec.ofNat 8 (2 ^ 7 + rc.toNat * 2 ^ 6 + reg.toNat * 2 + rd.toNat)

/-- The command byte of a `CMD_NOMARK` command (R102: bit 7 clear, any other bits). -/
def nomarkByte (bits : BitVec 7) : Byte := BitVec.ofNat 8 bits.toNat

/-- The two fixed burst command bytes (R10). -/
def burstReadCmd : Byte := 0xBF
def burstWriteCmd : Byte := 0xBE

/-! ## Fields of the words -/

/-- The fields of a request word (R91). -/
def reqOp (w : ReqWord) : BitVec 4 := w.extractLsb' 76 4
def reqRsv (w : ReqWord) : BitVec 3 := w.extractLsb' 73 3
def reqRel (w : ReqWord) : Bool := w.getLsbD 72
def reqA (w : ReqWord) : Byte := w.extractLsb' 64 8
def reqD (w : ReqWord) : BitVec 64 := w.extractLsb' 0 64
def reqV (w : ReqWord) : Byte := w.extractLsb' 0 8

/-- The eight bytes of a 64-bit field, byte `k` from bits `8k+7 : 8k` (R77, R97). -/
def bytesOfD (d : BitVec 64) : Bytes8 :=
  ⟨d.extractLsb' 0 8, d.extractLsb' 8 8, d.extractLsb' 16 8, d.extractLsb' 24 8,
   d.extractLsb' 32 8, d.extractLsb' 40 8, d.extractLsb' 48 8, d.extractLsb' 56 8⟩

/-- The 64-bit field of eight bytes, byte `k` at weight `256^k` (R77, R97). -/
def dOfBytes (b : Bytes8) : BitVec 64 :=
  BitVec.ofNat 64 (b.b0.toNat + 256 * (b.b1.toNat + 256 * (b.b2.toNat + 256 * (b.b3.toNat +
    256 * (b.b4.toNat + 256 * (b.b5.toNat + 256 * (b.b6.toNat + 256 * b.b7.toNat)))))))

/-- The command byte and data bytes of a wire word (log 4). -/
def wireCmd (w : WireWord) : Byte := w.extractLsb' 0 8
def wireV (w : WireWord) : Byte := w.extractLsb' 8 8
def wireD (w : WireWord) : BitVec 64 := w.extractLsb' 8 64

/-! ## Decoding -/

/-- Why a request word is illegal (R93): the fault `ILL` in both cases. -/
inductive DecodeError where
  | reservedOpcode (op : BitVec 4)
  | reservedBits (rsv : BitVec 3)
  deriving DecidableEq, Repr

/-- Decoding a request word (R91 to R97). A nonzero `RSV` is illegal whatever `OP` is (R94); fields an opcode does not
use are ignored (R95). -/
def decodeRequest (w : ReqWord) : Except DecodeError Instr :=
  if reqRsv w != 0#3 then .error (.reservedBits (reqRsv w))
  else match (reqOp w).toNat with
    | 1 => .ok .beginSession
    | 2 => .ok .endSession
    | 3 => .ok (.wrbyte (reqV w) (reqRel w))
    | 4 => .ok .rdbyte
    | 5 => .ok (.rdreg (reqA w))
    | 6 => .ok (.wrreg (reqA w) (reqV w))
    | 7 => .ok .burstrd
    | 8 => .ok (.burstwr (bytesOfD (reqD w)))
    | _ => .error (.reservedOpcode (reqOp w))

/-- The data byte a `CMD_NOMARK` session writes: none (0) when the byte's read bit is set (R100, R177, log 6). -/
def nomarkData (cmd v : Byte) : Byte := if cmdRdBit cmd then 0#8 else v

/-- Decoding a wire command and its data bytes (R102, R104). Every command byte is in exactly one class. -/
def decodeWire (w : WireWord) : Instr :=
  match classify (wireCmd w) with
  | .burstRd => .cmdBurstRd
  | .burstWr => .cmdBurstWr (bytesOfD (wireD w))
  | .clkRd => .cmdClkRd (cmdReg (wireCmd w))
  | .clkWr => .cmdClkWr (cmdReg (wireCmd w)) (wireV w)
  | .ramRd => .cmdRamRd (cmdReg (wireCmd w))
  | .ramWr => .cmdRamWr (cmdReg (wireCmd w)) (wireV w)
  | .nomark => .cmdNomark ((wireCmd w).extractLsb' 0 7) (nomarkData (wireCmd w) (wireV w))

/-- Decoding of whatever is presented. -/
def decode : Presented → Except DecodeError Instr
  | .req w => decodeRequest w
  | .wire w => .ok (decodeWire w)

/-! ## Encoding -/

/-- A request word from its fields: `OP` in bits 79:76, `RSV` = 0, `REL` in bit 72, `A` in bits 71:64, `D` in bits 63:0
(R91). -/
def reqWord (op : BitVec 4) (rel : Bool) (a : Byte) (d : BitVec 64) : ReqWord :=
  BitVec.ofNat 80 (op.toNat * 2 ^ 76 + rel.toNat * 2 ^ 72 + a.toNat * 2 ^ 64 + d.toNat)

/-- A single data byte in the 64-bit field (R91: `D[7:0]`). -/
def dOfByte (v : Byte) : BitVec 64 := BitVec.ofNat 64 v.toNat

/-- A wire word from its command byte and data field (log 4). -/
def wireWord (cmd : Byte) (d : BitVec 64) : WireWord := BitVec.ofNat 72 (d.toNat * 2 ^ 8 + cmd.toNat)

/-- The word of an instruction, unused fields 0 (R98, R109). -/
def encode : Instr → Presented
  | .beginSession => .req (reqWord 0x1 false 0 0)
  | .endSession => .req (reqWord 0x2 false 0 0)
  | .wrbyte v rel => .req (reqWord 0x3 rel 0 (dOfByte v))
  | .rdbyte => .req (reqWord 0x4 false 0 0)
  | .rdreg a => .req (reqWord 0x5 false a 0)
  | .wrreg a v => .req (reqWord 0x6 false a (dOfByte v))
  | .burstrd => .req (reqWord 0x7 false 0 0)
  | .burstwr b => .req (reqWord 0x8 false 0 (dOfBytes b))
  | .cmdBurstRd => .wire (wireWord burstReadCmd 0)
  | .cmdBurstWr b => .wire (wireWord burstWriteCmd (dOfBytes b))
  | .cmdClkRd reg => .wire (wireWord (cmdByte false reg true) 0)
  | .cmdClkWr reg v => .wire (wireWord (cmdByte false reg false) (dOfByte v))
  | .cmdRamRd reg => .wire (wireWord (cmdByte true reg true) 0)
  | .cmdRamWr reg v => .wire (wireWord (cmdByte true reg false) (dOfByte v))
  | .cmdNomark bits v => .wire (wireWord (nomarkByte bits) (dOfByte v))

/-- Are the fields that this word's operation does not use all 0 (R91, R95, R98)? For an illegal word: yes. -/
def ignoredFieldsZero : Presented → Bool
  | .req w => match (reqOp w).toNat with
    | 3 => reqA w == 0#8 && reqD w == dOfByte (reqV w)
    | 5 => !reqRel w && reqD w == 0#64
    | 6 => !reqRel w && reqD w == dOfByte (reqV w)
    | 8 => !reqRel w && reqA w == 0#8
    | 1 | 2 | 4 | 7 => !reqRel w && reqA w == 0#8 && reqD w == 0#64
    | _ => true
  | .wire w => match classify (wireCmd w) with
    | .burstRd | .clkRd | .ramRd => wireD w == 0#64
    | .clkWr | .ramWr => wireD w == dOfByte (wireV w)
    | .nomark => wireD w == dOfByte (nomarkData (wireCmd w) (wireV w))
    | .burstWr => true

/-! ## The host's fixed names -/

/-- The word of `nbits` bits as it is presented: 80 bits are a request word; one to nine whole bytes are a wire command
with that many bytes, the rest 0 (log 4). -/
def presentedOf (nbits w : Nat) : Option Presented :=
  if nbits == 80 then some (.req (BitVec.ofNat 80 w))
  else if 8 ≤ nbits && nbits ≤ 72 then some (.wire (BitVec.ofNat 72 (w % 2 ^ nbits)))
  else none

/-- The instruction the decoder reads from a word numbered as spec/opcode_table.json numbers it. -/
def decodeTableWord (nbits w : Nat) : Option Instr :=
  match presentedOf nbits w with
  | some p => (decode p).toOption
  | none => none

end Sys2Proof
end

