-- ==== Sys2Proof/Machine/State.lean ====
section
/-! DEFINITION. The state of the RTC3W controller (10_state.md), the host's and the device's side of it as plain data, and
the state after reset (R63). INVENTORY.md lists every field with its rule and reset value. -/

namespace Sys2Proof.Machine

/-- The kinds of fault the block records (60_exceptions.md R201). A fault is no stop: it is a next state (R203). -/
inductive FaultKind where
  | ill     -- ERR_ILL: the word spells no request
  | nosess  -- ERR_NOSESS: no session is open
  | dir     -- ERR_DIR: the data direction does not match the phase
  deriving DecidableEq, Repr

/-- Reasons the machine stops with a fault outcome. There are none: the block has no trap and no hang, and every fault of
R201 is taken as R203 says, in a next state (R205, log 16). Safe: nothing is stopped. -/
inductive Fault : Type
  deriving DecidableEq, Repr

/-- Reasons a step is refused. Nothing raises one: every instruction of the table has its meaning. -/
inductive Refusal where
  | notModelled (mnemonic : String)  -- an arm of exec without a meaning would raise it; safe: such a run stops
  deriving DecidableEq, Repr

/-- The line state, the source's Bus Handle (R26, R35 to R39). -/
structure Lines where
  ce     : Bool
  sclk   : Bool
  sclkOe : Bool
  ioDir  : IoDir
  ioOut  : Bool
  deriving DecidableEq, Repr

/-- The operations of the sequencer (R59): the pad primitives of R20, and the register transfers inside RDBYTE (R136)
and BURSTRD (R160). -/
inductive SeqOp where
  | setCE (b : Bool)
  | enableSCLK
  | setSCLK (b : Bool)
  | setIODir (d : IoDir)
  | driveIO (b : Bool)
  | hold (p : HoldParam)
  | clearShift              -- b <- 0x00
  | sampleBit (i : Fin 8)   -- b[i] <- SampleIO()
  | latchRdata              -- RDATA <- b
  | bufferByte (k : Fin 8)  -- t[k] <- RDATA
  | commitImage             -- IMG[0..7] <- t[0..7], IMG_VALID <- 1
  deriving DecidableEq, Repr

/-- What the host does next (R31, R32, R248). DESIGN CHOICE (logs 1 and 12). -/
inductive HostAction where
  | idle                                        -- a cycle with req_valid = 0 and rst = 0
  | present (p : Presented)                     -- present a request, which runs to its response
  | presentMidway (p : Presented) (n : Nat)     -- the same, seen after n sequencer operations, still busy
  | rst                                         -- rst = 1 at a clock edge
  deriving DecidableEq, Repr

/-- The state. The last three fields are the model's own (logs 1 to 3), not the spec's. -/
structure State where
  lines     : Lines            -- CE, SCLK, SCLK_OE, IO_DIR, IO_OUT (R35 to R39)
  rdata     : Byte             -- RDATA (R41)
  img       : Bytes8           -- IMG[0..7] (R42)
  imgValid  : Bool             -- IMG_VALID (R43)
  busy      : Bool             -- STATUS.BUSY (R45)
  errIll    : Bool             -- STATUS.ERR_ILL (R45, R201)
  errNosess : Bool             -- STATUS.ERR_NOSESS
  errDir    : Bool             -- STATUS.ERR_DIR
  rspValid  : Bool             -- rsp_valid (R32)
  rspErr    : Bool             -- rsp_err (R32)
  seq       : List SeqOp       -- what the sequencer has still to do (R59)
  shift     : Byte             -- the shift register (R59)
  burst     : Bytes8           -- the burst buffer t (R59, R60)
  trace     : PadTrace         -- the pad trace, oldest first (R20, R63)
  past      : List PadTrace    -- MODEL: the traces cut off by earlier resets, oldest first (log 3)
  device    : List Bool        -- MODEL: the device's answers to the next samples (log 2)
  host      : List HostAction  -- MODEL: what the host does next (log 1)
  deriving DecidableEq, Repr

/-- Eight zero bytes. -/
def zeroBytes : Bytes8 := ⟨0, 0, 0, 0, 0, 0, 0, 0⟩

/-- The lines after reset (R63). -/
def resetLines : Lines :=
  { ce := false, sclk := false, sclkOe := false, ioDir := .input, ioOut := false }

/-- The state after reset (R63). `rspErr` is a DESIGN CHOICE (log 7); `past`, `device` and `host` are the model's own
(logs 1 to 3). -/
def State.reset : State where
  lines := resetLines
  rdata := 0x00
  img := zeroBytes
  imgValid := false
  busy := false
  errIll := false
  errNosess := false
  errDir := false
  rspValid := false
  rspErr := false
  seq := []
  shift := 0x00
  burst := zeroBytes
  trace := []
  past := []
  device := []
  host := []

end Sys2Proof.Machine
end

