-- ==== Sys2Proof/Machine/Operands.lean ====
section
/-! DEFINITION. Operand forms and bit access: bits and bytes by index (R15, R22, R42), command bytes derived from an address
(R151), and the condition a primitive request checks before it runs (R120, R201, R202). -/

namespace Sys2Proof.Machine

/-- `for i in 0..7` (R22). -/
def indices8 : List (Fin 8) := [0, 1, 2, 3, 4, 5, 6, 7]

/-- `v[i]` (R15). -/
def bitOf (v : Byte) (i : Fin 8) : Bool := v.getLsbD i.val

/-- `v[i] <- b` (R22). -/
def setBit (v : Byte) (i : Fin 8) (b : Bool) : Byte :=
  if b then v ||| (1#8 <<< i.val) else v &&& ~~~(1#8 <<< i.val)

/-- Byte `k` of eight (R42). -/
def byteAt (b : Bytes8) (k : Fin 8) : Byte :=
  match k with
  | 0 => b.b0 | 1 => b.b1 | 2 => b.b2 | 3 => b.b3
  | 4 => b.b4 | 5 => b.b5 | 6 => b.b6 | 7 => b.b7

/-- `b[k] <- v` for a record of eight bytes. -/
def setByteAt (b : Bytes8) (k : Fin 8) (v : Byte) : Bytes8 :=
  match k with
  | 0 => { b with b0 := v } | 1 => { b with b1 := v } | 2 => { b with b2 := v } | 3 => { b with b3 := v }
  | 4 => { b with b4 := v } | 5 => { b with b5 := v } | 6 => { b with b6 := v } | 7 => { b with b7 := v }

/-- `cmd_rd(a) = a | 0x01` (R151). -/
def cmdRd (a : Byte) : Byte := a ||| 0x01

/-- `cmd_wr(a) = a & 0xFE` (R151). -/
def cmdWr (a : Byte) : Byte := a &&& 0xFE

/-- The checks of WRBYTE (`need = OUT`) and RDBYTE (`need = IN`), in the order of R202: a session is open, then the data
line has the direction the request needs (R130, R136, R201). -/
def busFault (need : IoDir) (l : Lines) : Option FaultKind :=
  if !l.ce then some .nosess
  else if l.ioDir ≠ need then some .dir
  else none

end Sys2Proof.Machine
end

