-- ==== Sys2Proof/Machine/Ops.lean ====
section
/-! DEFINITION. The shared operations: one pad event (R20), one sample (R27), one sequencer operation (R59), accepting a
request and responding to it (R32, R45), taking a fault (R203), reset (R31, R63, R234). -/

namespace Sys2Proof.Machine

/-- The state change of a pad event on the lines (R20). `Hold` and `SampleIO` change no line. -/
def applyEvent (e : PadEvent) (l : Lines) : Lines :=
  match e with
  | .ce b => { l with ce := b }
  | .sclkOe => { l with sclkOe := true }
  | .sclk b => { l with sclk := b }
  | .ioDir d => { l with ioDir := d }
  | .io b => { l with ioOut := b }
  | .hold _ => l
  | .sample _ => l

/-- A pad primitive: its state change, and its event appended to the trace (R20). -/
def emit (e : PadEvent) (s : State) : State :=
  { s with lines := applyEvent e s.lines, trace := s.trace ++ [e] }

/-- The bit the device presents at the pending sample: the next assumed answer, or a free value where the device's
answers are left open (R27, R28, log 2). -/
def deviceAnswer (s : State) : Bool :=
  match s.device with
  | b :: _ => b
  | [] => Config.deviceOracle s.past s.trace

/-- `b[i] <- SampleIO()` (R20, R136). -/
def sampleInto (i : Fin 8) (s : State) : State :=
  emit (.sample (deviceAnswer s))
    { s with shift := setBit s.shift i (deviceAnswer s), device := s.device.tail }

/-- One operation of the sequencer. -/
def runOp (o : SeqOp) (s : State) : State :=
  match o with
  | .setCE b => emit (.ce b) s
  | .enableSCLK => emit .sclkOe s
  | .setSCLK b => emit (.sclk b) s
  | .setIODir d => emit (.ioDir d) s
  | .driveIO b => emit (.io b) s
  | .hold p => emit (.hold p) s
  | .clearShift => { s with shift := 0x00 }
  | .sampleBit i => sampleInto i s
  | .latchRdata => { s with rdata := s.shift }
  | .bufferByte k => { s with burst := setByteAt s.burst k s.rdata }
  | .commitImage => { s with img := s.burst, imgValid := true }

/-- A list of sequencer operations, in order (R80). -/
def runOps (ops : List SeqOp) (s : State) : State := ops.foldl (fun t o => runOp o t) s

/-- The sequencer takes its next operation; an idle sequencer does nothing. -/
def tick (s : State) : State :=
  match s.seq with
  | [] => s
  | o :: rest => runOp o { s with seq := rest }

def ticks : Nat → State → State
  | 0, s => s
  | n + 1, s => ticks n (tick s)

/-- The running request goes on to its last operation (R29, R246). -/
def complete (s : State) : State := ticks s.seq.length s

/-- A request is accepted: BUSY rises (R32, R45), the sequencer is loaded, and an earlier response is over. -/
def accept (ops : List SeqOp) (s : State) : State :=
  { s with busy := true, rspValid := false, seq := ops }

/-- The response of a completed request: `rsp_err = 0`, and BUSY falls (R32, R45, R150). -/
def respond (s : State) : State :=
  { s with busy := false, rspValid := true, rspErr := false }

/-- A legal request, from its acceptance to its response (R29). -/
def runRequest (ops : List SeqOp) (s : State) : State := respond (complete (accept ops s))

/-- Is this the operation that coincides with the response (R45, R51, R163)? -/
def isCommit : SeqOp → Bool
  | .commitImage => true
  | _ => false

/-- The operations a request has done before its response: all of them, but for the writing of the image. -/
def beforeResponse (ops : List SeqOp) : List SeqOp := ops.takeWhile fun o => !isCommit o

/-- A request that is still running after `n` operations, up to its final hold, in which all its pad events have
happened and its response has not been given (R20, R234). The image is never written in a busy state (log 12). -/
def runMidway (ops : List SeqOp) (n : Nat) (s : State) : State :=
  ticks (min n (beforeResponse ops).length) (accept ops s)

/-- Taking a fault (R203): no pad event, no line or data register changed; the fault's sticky bit set (R204); one response
with `rsp_err = 1`; BUSY is 0 after it. There is no vector and no return (R205). -/
def raiseFault (k : FaultKind) (s : State) : State :=
  { s with
    errIll := s.errIll || k == .ill
    errNosess := s.errNosess || k == .nosess
    errDir := s.errDir || k == .dir
    rspValid := true
    rspErr := true
    busy := false }

/-- Run a request's operations, or take the fault its checks found (R19, R120). -/
def perform (r : Except FaultKind (List SeqOp)) (s : State) : Host.Outcome State Fault Refusal :=
  match r with
  | .error k => .next (raiseFault k s)
  | .ok ops => .next (runRequest ops s)

/-- `rst = 1` at a clock edge, during a request or not (R31, R63, R234): every state element takes its reset value. What
lies outside the block goes on: the device has seen the trace so far (R233, log 3), and keeps the answers assumed of
it; the host goes on with its stream. -/
def applyReset (s : State) : State :=
  { State.reset with past := s.past ++ [s.trace], device := s.device, host := s.host }

/-- A cycle in which nothing is presented: the block keeps all its state (R213), and a response lasts no longer (R32). -/
def idleCycle (s : State) : State := { s with rspValid := false }

end Sys2Proof.Machine
end

