-- ==== Sys2Proof/Machine/BusDriver.lean ====
section
/-! DEFINITION. The Bus Driver requests BEGIN, END, WRBYTE, RDBYTE (40_bus_driver.md). -/

namespace Sys2Proof.Machine

/-- BEGIN (R121), with `ceWas` the value of CE at entry: the extra hold of R122 stands only in an open session. -/
def beginOps (ceWas : Bool) : List SeqOp :=
  [.setCE false] ++ (if ceWas then [.hold .ceOff] else []) ++
  [.enableSCLK, .setIODir .output, .setSCLK false, .setCE true, .hold .ceSu]

/-- END (R125). -/
def endOps : List SeqOp := [.setCE false, .hold .ceOff]

/-- One bit of WRBYTE (R130); the last bit of a released byte ends with the turnaround instead of the low clock
(R131, R132). -/
def wrbitOps (v : Byte) (rel : Bool) (i : Fin 8) : List SeqOp :=
  [.driveIO (bitOf v i), .hold .dsu, .setSCLK true, .hold .ckh] ++
  (if rel && i == 7 then [.setIODir .input] else [.setSCLK false, .hold .ckl])

/-- WRBYTE after its checks (R130). -/
def wrbyteOps (v : Byte) (rel : Bool) : List SeqOp := indices8.flatMap (wrbitOps v rel)

/-- One bit of RDBYTE (R136): sampled after the low hold (R137). -/
def rdbitOps (i : Fin 8) : List SeqOp :=
  [.setSCLK true, .hold .ckh, .setSCLK false, .hold .ckl, .sampleBit i]

/-- RDBYTE after its checks (R136). -/
def rdbyteOps : List SeqOp := [.clearShift] ++ indices8.flatMap rdbitOps ++ [.latchRdata]

/-- WRBYTE with its checks (R130, R202). -/
def wrbyteSeq (v : Byte) (rel : Bool) (s : State) : Except FaultKind (List SeqOp) :=
  match busFault .output s.lines with
  | some k => .error k
  | none => .ok (wrbyteOps v rel)

/-- RDBYTE with its checks (R136, R202). -/
def rdbyteSeq (s : State) : Except FaultKind (List SeqOp) :=
  match busFault .input s.lines with
  | some k => .error k
  | none => .ok rdbyteOps

/-- BEGIN: legal in every phase (R121). -/
def execBegin (s : State) : Host.Outcome State Fault Refusal := perform (.ok (beginOps s.lines.ce)) s

/-- END: legal in every phase (R125). -/
def execEnd (s : State) : Host.Outcome State Fault Refusal := perform (.ok endOps) s

/-- WRBYTE (R130). -/
def execWrbyte (v : Byte) (rel : Bool) (s : State) : Host.Outcome State Fault Refusal :=
  perform (wrbyteSeq v rel s) s

/-- RDBYTE (R136). -/
def execRdbyte (s : State) : Host.Outcome State Fault Refusal := perform (rdbyteSeq s) s

end Sys2Proof.Machine
end

