-- ==== Sys2Proof/Machine/RegisterProtocol.lean ====
section
/-! DEFINITION. The Register Protocol Layer: the sessions it runs on the Bus Driver (41_register_protocol.md R150, R170) and
the requests RDREG, WRREG, BURSTRD, BURSTWR. The byte transfers inside a session need no check: BEGIN leaves phase WRITE and
the released command leaves TURNED, so none of them can fault (R55, R152). -/

namespace Sys2Proof.Machine

/-- A session that sends `cmd` with release and reads one byte (R152, R170). -/
def readSession (ceWas : Bool) (cmd : Byte) : List SeqOp :=
  beginOps ceWas ++ wrbyteOps cmd true ++ rdbyteOps ++ endOps

/-- A session that sends `cmd` and one byte (R155, R170). -/
def writeSession (ceWas : Bool) (cmd v : Byte) : List SeqOp :=
  beginOps ceWas ++ wrbyteOps cmd false ++ wrbyteOps v false ++ endOps

/-- A session that sends `cmd` with release and reads eight bytes into the burst buffer (R160, R170). -/
def burstReadSession (ceWas : Bool) (cmd : Byte) : List SeqOp :=
  beginOps ceWas ++ wrbyteOps cmd true ++
  indices8.flatMap (fun k => rdbyteOps ++ [.bufferByte k]) ++ endOps

/-- A session that sends `cmd` and eight bytes, byte 0 first (R76, R167, R170). -/
def burstWriteSession (ceWas : Bool) (cmd : Byte) (b : Bytes8) : List SeqOp :=
  beginOps ceWas ++ wrbyteOps cmd false ++
  indices8.flatMap (fun k => wrbyteOps (byteAt b k) false) ++ endOps

/-- RDREG (R152). -/
def execRdreg (a : Byte) (s : State) : Host.Outcome State Fault Refusal :=
  perform (.ok (readSession s.lines.ce (cmdRd a))) s

/-- WRREG (R155). -/
def execWrreg (a v : Byte) (s : State) : Host.Outcome State Fault Refusal :=
  perform (.ok (writeSession s.lines.ce (cmdWr a) v)) s

/-- BURSTRD (R160): the session, and then the image and its valid bit, all at once (R163). -/
def burstrdOps (ceWas : Bool) : List SeqOp := burstReadSession ceWas burstReadCmd ++ [.commitImage]

def execBurstrd (s : State) : Host.Outcome State Fault Refusal :=
  perform (.ok (burstrdOps s.lines.ce)) s

/-- BURSTWR (R167). -/
def execBurstwr (b : Bytes8) (s : State) : Host.Outcome State Fault Refusal :=
  perform (.ok (burstWriteSession s.lines.ce burstWriteCmd b)) s

end Sys2Proof.Machine
end

