-- ==== Sys2Proof/Machine/WireCommands.lean ====
section
/-! DEFINITION. The wire commands by class (41_register_protocol.md R170 to R177): each is the session its class calls for,
run like a request (log 4). None writes IMG, which only a BURSTRD request does (R42, R165, log 5). -/

namespace Sys2Proof.Machine

/-- `CMD_NOMARK` (R177): the same single-register sequence; its bit 0 tells a read from a write (R100, log 6). -/
def nomarkSession (ceWas : Bool) (cmd v : Byte) : List SeqOp :=
  if cmdRdBit cmd then readSession ceWas cmd else writeSession ceWas cmd v

/-- CMD_BURST_RD (R175). -/
def execCmdBurstRd (s : State) : Host.Outcome State Fault Refusal :=
  perform (.ok (burstReadSession s.lines.ce burstReadCmd)) s

/-- CMD_BURST_WR (R176). -/
def execCmdBurstWr (b : Bytes8) (s : State) : Host.Outcome State Fault Refusal :=
  perform (.ok (burstWriteSession s.lines.ce burstWriteCmd b)) s

/-- CMD_CLK_RD (R171). -/
def execCmdClkRd (reg : BitVec 5) (s : State) : Host.Outcome State Fault Refusal :=
  perform (.ok (readSession s.lines.ce (cmdByte false reg true))) s

/-- CMD_CLK_WR (R172). -/
def execCmdClkWr (reg : BitVec 5) (v : Byte) (s : State) : Host.Outcome State Fault Refusal :=
  perform (.ok (writeSession s.lines.ce (cmdByte false reg false) v)) s

/-- CMD_RAM_RD (R173). -/
def execCmdRamRd (reg : BitVec 5) (s : State) : Host.Outcome State Fault Refusal :=
  perform (.ok (readSession s.lines.ce (cmdByte true reg true))) s

/-- CMD_RAM_WR (R174). -/
def execCmdRamWr (reg : BitVec 5) (v : Byte) (s : State) : Host.Outcome State Fault Refusal :=
  perform (.ok (writeSession s.lines.ce (cmdByte true reg false) v)) s

/-- CMD_NOMARK (R177). -/
def execCmdNomark (bits : BitVec 7) (v : Byte) (s : State) : Host.Outcome State Fault Refusal :=
  perform (.ok (nomarkSession s.lines.ce (nomarkByte bits) v)) s

end Sys2Proof.Machine
end

