-- ==== Sys2Proof/Machine/Dispatch.lean ====
section
/-! DEFINITION. One arm per constructor of Instr. -/

namespace Sys2Proof.Machine

def exec (i : Instr) (s : State) : Host.Outcome State Fault Refusal :=
  match i with
  | .beginSession => Sys2Proof.Machine.execBegin s
  | .endSession => Sys2Proof.Machine.execEnd s
  | .wrbyte v rel => Sys2Proof.Machine.execWrbyte v rel s
  | .rdbyte => Sys2Proof.Machine.execRdbyte s
  | .rdreg a => Sys2Proof.Machine.execRdreg a s
  | .wrreg a v => Sys2Proof.Machine.execWrreg a v s
  | .burstrd => Sys2Proof.Machine.execBurstrd s
  | .burstwr b => Sys2Proof.Machine.execBurstwr b s
  | .cmdBurstRd => Sys2Proof.Machine.execCmdBurstRd s
  | .cmdBurstWr b => Sys2Proof.Machine.execCmdBurstWr b s
  | .cmdClkRd reg => Sys2Proof.Machine.execCmdClkRd reg s
  | .cmdClkWr reg v => Sys2Proof.Machine.execCmdClkWr reg v s
  | .cmdRamRd reg => Sys2Proof.Machine.execCmdRamRd reg s
  | .cmdRamWr reg v => Sys2Proof.Machine.execCmdRamWr reg v s
  | .cmdNomark bits v => Sys2Proof.Machine.execCmdNomark bits v s

end Sys2Proof.Machine
end

