-- ==== Sys2Proof/Machine/TimeDecoder.lean ====
section
/-! DEFINITION. The BCD Time Decoder (42_time_decoder.md): functions of the clock image and of the parameter IMAGE_LAYOUT. -/

namespace Sys2Proof.Machine

/-- The default of the parameter `IMAGE_LAYOUT` (R14, R181 to R184). PRESUMED by the spec itself (GK6, log 11). -/
def imageLayout : ImageLayout where
  secUnits := ⟨0, 0, 4⟩
  secTens := ⟨0, 4, 3⟩
  minUnits := ⟨1, 0, 4⟩
  minTens := ⟨1, 4, 3⟩
  hourUnits := ⟨2, 0, 4⟩
  hourTens24 := ⟨2, 4, 2⟩
  hourTens12 := ⟨2, 4, 1⟩
  ch := ⟨0, 7, 1⟩
  hr12 := ⟨2, 7, 1⟩
  pm := ⟨2, 5, 1⟩
  wp := ⟨7, 7, 1⟩

/-- The value of a field of the image, a natural (R15, R16). -/
def fieldValue (f : BitField) (img : Bytes8) : Nat :=
  ((byteAt img f.byte).toNat >>> f.lo) % 2 ^ f.width

/-- A one-bit field as a flag. -/
def fieldFlag (f : BitField) (img : Bytes8) : Bool := fieldValue f img == 1

/-- `high * 10 + low` (R185 to R187), exact on naturals (R194). -/
def decimal (tens units : BitField) (img : Bytes8) : Nat :=
  10 * fieldValue tens img + fieldValue units img

/-- `SEC` (R185), `MIN` (R186), `HOUR` (R187: the 24-hour reading, whatever `HR12` says), 8 bits each. -/
def sec (L : ImageLayout) (img : Bytes8) : Byte := BitVec.ofNat 8 (decimal L.secTens L.secUnits img)
def minute (L : ImageLayout) (img : Bytes8) : Byte := BitVec.ofNat 8 (decimal L.minTens L.minUnits img)
def hour (L : ImageLayout) (img : Bytes8) : Byte := BitVec.ofNat 8 (decimal L.hourTens24 L.hourUnits img)

/-- The other reading of the hours byte, which R183 names and no output uses (R193): PM and the hour of a 12-hour clock. -/
def hour12 (L : ImageLayout) (img : Bytes8) : Bool × Nat :=
  (fieldFlag L.pm img, decimal L.hourTens12 L.hourUnits img)

/-- `SOFT_ZERO` (R189): every byte of the image is 0. -/
def softZero (img : Bytes8) : Bool := indices8.all fun k => byteAt img k == 0x00

/-- `SOFT_BCD` (R190): a units digit over 9 in seconds, minutes or hours. -/
def softBcd (L : ImageLayout) (img : Bytes8) : Bool :=
  decide (9 < fieldValue L.secUnits img) || decide (9 < fieldValue L.minUnits img) ||
  decide (9 < fieldValue L.hourUnits img)

/-- `SOFT_RANGE` (R191): a decoded value out of range. -/
def softRange (L : ImageLayout) (img : Bytes8) : Bool :=
  decide (59 < (sec L img).toNat) || decide (59 < (minute L img).toNat) || decide (23 < (hour L img).toNat)

end Sys2Proof.Machine
end

