-- ==== Sys2Proof/Machine/Flags.lean ====
section
/-! DEFINITION. The flag and status bytes: STATUS (10_state.md R45), LINES (R47), DFLAGS (42_time_decoder.md R188), and
the protocol phase (R53). -/

namespace Sys2Proof.Machine

/-- A byte from its bits, bit 0 first (R15). -/
def byteOfBits (b0 b1 b2 b3 b4 b5 b6 b7 : Bool) : Byte :=
  BitVec.ofBool b7 ++ BitVec.ofBool b6 ++ BitVec.ofBool b5 ++ BitVec.ofBool b4 ++
  BitVec.ofBool b3 ++ BitVec.ofBool b2 ++ BitVec.ofBool b1 ++ BitVec.ofBool b0

/-- `STATUS` (R45): BUSY, IMG_VALID, SESS (the mirror of CE), reserved, ERR_ILL, ERR_NOSESS, ERR_DIR, reserved. -/
def status (s : State) : Byte :=
  byteOfBits s.busy s.imgValid s.lines.ce false s.errIll s.errNosess s.errDir false

/-- `IO_DIR` as a bit: OUT = 1 (R38). -/
def dirBit (d : IoDir) : Bool := decide (d = .output)

/-- `LINES` (R47), with `ioIn` the live level of `io_i`, which is a draw. -/
def linesByte (ioIn : Bool) (l : Lines) : Byte :=
  byteOfBits l.ce l.sclk l.sclkOe (dirBit l.ioDir) l.ioOut ioIn false false

/-- `DFLAGS` (R188): CH, HR12, PM, WP, SOFT_ZERO, SOFT_BCD, SOFT_RANGE, reserved. -/
def dflags (L : ImageLayout) (img : Bytes8) : Byte :=
  byteOfBits (fieldFlag L.ch img) (fieldFlag L.hr12 img) (fieldFlag L.pm img) (fieldFlag L.wp img)
    (softZero img) (softBcd L img) (softRange L img) false

/-- The protocol phases (R53). -/
inductive Phase where
  | idle | write | turned | read | unreachable
  deriving DecidableEq, Repr

/-- The phase is a function of CE, IO_DIR and SCLK (R53). -/
def phase (l : Lines) : Phase :=
  match l.ce, l.ioDir, l.sclk with
  | false, _, _ => .idle
  | true, .output, false => .write
  | true, .input, true => .turned
  | true, .input, false => .read
  | true, .output, true => .unreachable

end Sys2Proof.Machine
end

