-- ==== Sys2Proof/Machine/ReadPort.lean ====
section
/-! DEFINITION. What the outside sees: the host read port (10_state.md R33, R51), the response and ready outputs (R32), the
decoded outputs (R33), the pad signals (R30). All are functions of the state: reading changes nothing (R50, R84). -/

namespace Sys2Proof.Machine

/-- The registers of the read port (R51). -/
inductive ReadReg where
  | status | lines | rdata | sec | minute | hour | dflags | reserved
  | img (k : Fin 8)
  deriving DecidableEq, Repr

/-- The map of R51: every index of the 4-bit space is defined (R52). -/
def readReg (index : BitVec 4) : ReadReg :=
  match index.toNat with
  | 0 => .status | 1 => .lines | 2 => .rdata | 3 => .sec
  | 4 => .minute | 5 => .hour | 6 => .dflags | 7 => .reserved
  | 8 => .img 0 | 9 => .img 1 | 10 => .img 2 | 11 => .img 3
  | 12 => .img 4 | 13 => .img 5 | 14 => .img 6 | _ => .img 7

/-- `rd_data` (R51). `draw` is a free value (log 8): its bit 5 is the level of `io_i` in LINES (R47), and while a
request runs it is the whole intermediate value of RDATA or of LINES, whose reserved bits still read 0. -/
def readPort (index : BitVec 4) (draw : Byte) (s : State) : Byte :=
  match readReg index with
  | .status => status s
  | .lines => if s.busy then draw &&& 0x3F else linesByte (draw.getLsbD 5) s.lines
  | .rdata => if s.busy then draw else s.rdata
  | .sec => sec imageLayout s.img
  | .minute => minute imageLayout s.img
  | .hour => hour imageLayout s.img
  | .dflags => dflags imageLayout s.img
  | .reserved => 0x00
  | .img k => byteAt s.img k

/-- The host-side outputs (R32, R33). -/
structure HostOutputs where
  reqReady : Bool
  rspValid : Bool
  rspErr   : Bool
  rspData  : Byte
  secO     : Byte
  minO     : Byte
  hourO    : Byte
  dflagsO  : Byte
  deriving DecidableEq, Repr

def hostOutputs (s : State) : HostOutputs where
  reqReady := !s.busy
  rspValid := s.rspValid
  rspErr := s.rspErr
  rspData := s.rdata
  secO := sec imageLayout s.img
  minO := minute imageLayout s.img
  hourO := hour imageLayout s.img
  dflagsO := dflags imageLayout s.img

/-- The pad-side outputs (R30). -/
structure PadOutputs where
  ceO    : Bool
  sclkO  : Bool
  sclkOe : Bool
  ioO    : Bool
  ioOe   : Bool
  deriving DecidableEq, Repr

/-- The pad levels, with the select polarity `CE_ACTIVE_HIGH` an argument (R12, R30); its default is
`Config.ceActiveHigh` (log 10). -/
def padOutputs (ceActiveHigh : Bool) (l : Lines) : PadOutputs where
  ceO := if ceActiveHigh then l.ce else !l.ce
  sclkO := l.sclk
  sclkOe := l.sclkOe
  ioO := l.ioOut
  ioOe := dirBit l.ioDir

/-- The pads of this block, at the default polarity. -/
def pads (s : State) : PadOutputs := padOutputs Config.ceActiveHigh s.lines

end Sys2Proof.Machine
end

