-- ==== Sys2Proof/Machine/Trace.lean ====
section
/-! DEFINITION. Reading a pad trace: the traces the rules give each request (40_bus_driver.md, 95_test_vectors.md), the
lines a trace leaves, clock edges (R20, R133, R139), session shape (R161, R164), hold times (R11, R250), and the wire
discipline of R58, R137 and R245. -/

namespace Sys2Proof.Machine

/-! ## The traces the rules list -/

/-- BEGIN's trace (R121, R122). -/
def beginTrace (ceWas : Bool) : PadTrace :=
  [.ce false] ++ (if ceWas then [.hold .ceOff] else []) ++
  [.sclkOe, .ioDir .output, .sclk false, .ce true, .hold .ceSu]

/-- END's trace (R125). -/
def endTrace : PadTrace := [.ce false, .hold .ceOff]

/-- The events of one bit of WRBYTE (R130, R131). -/
def wrbitTrace (v : Byte) (rel : Bool) (i : Fin 8) : PadTrace :=
  [.io (bitOf v i), .hold .dsu, .sclk true, .hold .ckh] ++
  (if rel && i == 7 then [.ioDir .input] else [.sclk false, .hold .ckl])

/-- WRBYTE's trace (R130). -/
def wrbyteTrace (v : Byte) (rel : Bool) : PadTrace := indices8.flatMap (wrbitTrace v rel)

/-- The events of one bit of RDBYTE whose sample is bit `i` of `x` (R136, R137). -/
def rdbitTrace (x : Byte) (i : Fin 8) : PadTrace :=
  [.sclk true, .hold .ckh, .sclk false, .hold .ckl, .sample (bitOf x i)]

/-- RDBYTE's trace when the device presents the bits of `x` (R136). -/
def rdbyteTrace (x : Byte) : PadTrace := indices8.flatMap (rdbitTrace x)

/-- Eight RDBYTEs in a row, image byte 0 first (R76, R160). -/
def rdbytesTrace (t : Bytes8) : PadTrace := indices8.flatMap fun k => rdbyteTrace (byteAt t k)

/-- Eight WRBYTEs in a row, image byte 0 first (R76, R167). -/
def wrbytesTrace (b : Bytes8) : PadTrace := indices8.flatMap fun k => wrbyteTrace (byteAt b k) false

/-! ## What a trace shows -/

/-- The lines a trace leaves, from the lines it starts with (R20). -/
def replay (t : PadTrace) (l : Lines) : Lines := t.foldl (fun m e => applyEvent e m) l

/-- Rising SCLK edges of a trace that starts at clock level `level` (R20). -/
def risingEdges : Bool → PadTrace → Nat
  | _, [] => 0
  | level, .sclk b :: rest => (if !level && b then 1 else 0) + risingEdges b rest
  | level, _ :: rest => risingEdges level rest

/-- Falling SCLK edges of a trace that starts at clock level `level` (R20). -/
def fallingEdges : Bool → PadTrace → Nat
  | _, [] => 0
  | level, .sclk b :: rest => (if level && !b then 1 else 0) + fallingEdges b rest
  | level, _ :: rest => fallingEdges level rest

def isSample : PadEvent → Bool
  | .sample _ => true
  | _ => false

def isCe : PadEvent → Bool
  | .ce _ => true
  | _ => false

/-- The samples of a trace. -/
def sampleCount (t : PadTrace) : Nat := t.countP isSample

def drivenBit : PadEvent → Option Bool
  | .io b => some b
  | _ => none

/-- The bits a trace drives on the data line, in order (R20). -/
def drivenBits (t : PadTrace) : List Bool := t.filterMap drivenBit

/-- What follows the `n`-th rising SCLK edge of a trace that starts at clock level `level` (R164). -/
def afterRising : Nat → Bool → PadTrace → PadTrace
  | 0, _, t => t
  | _ + 1, _, [] => []
  | n + 1, level, .sclk b :: rest => if !level && b then afterRising n b rest else afterRising (n + 1) b rest
  | n + 1, level, _ :: rest => afterRising (n + 1) level rest

/-! ## Holds and time -/

/-- A hold's duration in nanoseconds (R11): positive, at least the device's minimum, and otherwise open (log 9). -/
def holdTime (p : HoldParam) : Nat := max 1 (Config.devMinHold p) + Config.holdSlack p

/-- The least number of clock cycles a hold lasts, `ceil(T * F_CLK)` (R13). -/
def holdCycles (p : HoldParam) : Nat := (holdTime p * Config.fClk + 999999999) / 1000000000

/-- How many holds of parameter `p` a trace has. -/
def holdCount (p : HoldParam) (t : PadTrace) : Nat := t.countP fun e => e == .hold p

/-- What an event takes at least: a hold its duration, every other event no time (R21). -/
def eventTime : PadEvent → Nat
  | .hold p => holdTime p
  | _ => 0

/-- The least time a trace takes (R250). -/
def minTime (t : PadTrace) : Nat := (t.map eventTime).sum

/-- The same in clock cycles (R13). -/
def eventCycles : PadEvent → Nat
  | .hold p => holdCycles p
  | _ => 0

/-- The least number of clock cycles of a trace's holds (R13). -/
def minCycles (t : PadTrace) : Nat := (t.map eventCycles).sum

/-! ## Wire discipline -/

/-- What the discipline depends on: the lines, and whether select has been taken away without a `T_CE_OFF` since (R245). -/
structure Wire where
  lines    : Lines
  offOwed  : Bool
  deriving DecidableEq, Repr

/-- The wire after one event. -/
def wireNext (e : PadEvent) (w : Wire) : Wire where
  lines := applyEvent e w.lines
  offOwed := match e with
    | .ce false => w.offOwed || w.lines.ce
    | .hold .ceOff => false
    | _ => w.offOwed

/-- May this event stand here? The block changes its data bit only in a session, driving the line, with the clock low
(R58, R130, R248); it samples only in a session, with the line released and the clock low (R58, R137); it releases the
line only in a session with the clock high (R58, R131); it moves the clock only when it drives it (R57); it selects the
device only after the select-inactive time (R245). -/
def eventOk (e : PadEvent) (w : Wire) : Bool :=
  match e with
  | .io _ => w.lines.ce && decide (w.lines.ioDir = .output) && !w.lines.sclk
  | .sample _ => w.lines.ce && decide (w.lines.ioDir = .input) && !w.lines.sclk
  | .ioDir .input => w.lines.ce && w.lines.sclk
  | .ioDir .output => !w.lines.ce
  | .sclk _ => w.lines.sclkOe
  | .ce true => !w.offOwed
  | .ce false => true
  | .sclkOe => true
  | .hold _ => true

/-- Every event of the trace may stand where it stands. -/
def traceOk : PadTrace → Wire → Bool
  | [], _ => true
  | e :: rest, w => eventOk e w && traceOk rest (wireNext e w)

/-- The wire after a trace. -/
def wireAfter (t : PadTrace) (w : Wire) : Wire := t.foldl (fun m e => wireNext e m) w

/-- The wire after reset (R63). -/
def resetWire : Wire := { lines := resetLines, offOwed := false }

end Sys2Proof.Machine
end

