-- ==== Sys2Proof/Machine/Channel.lean ====
section
/-! DEFINITION. The request channel and the reset input (10_state.md R31, R32; 70_reset_and_hazards.md R234, R243): what
one step of the machine does with the host's next action. -/

namespace Sys2Proof.Machine

/-- The operations each instruction's meaning runs, or the fault its checks find: what a step needs to look at a request
midway (R59). -/
def sequenceOf (i : Instr) (s : State) : Except FaultKind (List SeqOp) :=
  match i with
  | .beginSession => .ok (beginOps s.lines.ce)
  | .endSession => .ok endOps
  | .wrbyte v rel => wrbyteSeq v rel s
  | .rdbyte => rdbyteSeq s
  | .rdreg a => .ok (readSession s.lines.ce (cmdRd a))
  | .wrreg a v => .ok (writeSession s.lines.ce (cmdWr a) v)
  | .burstrd => .ok (burstrdOps s.lines.ce)
  | .burstwr b => .ok (burstWriteSession s.lines.ce burstWriteCmd b)
  | .cmdBurstRd => .ok (burstReadSession s.lines.ce burstReadCmd)
  | .cmdBurstWr b => .ok (burstWriteSession s.lines.ce burstWriteCmd b)
  | .cmdClkRd reg => .ok (readSession s.lines.ce (cmdByte false reg true))
  | .cmdClkWr reg v => .ok (writeSession s.lines.ce (cmdByte false reg false) v)
  | .cmdRamRd reg => .ok (readSession s.lines.ce (cmdByte true reg true))
  | .cmdRamWr reg v => .ok (writeSession s.lines.ce (cmdByte true reg false) v)
  | .cmdNomark bits v => .ok (nomarkSession s.lines.ce (nomarkByte bits) v)

/-- A presented request, taken and run to its response; an illegal word is the fault `ILL`, found before any other
check (R93, R201, R202). -/
def takeRequest (p : Presented) (s : State) : Host.Outcome State Fault Refusal :=
  match decode p with
  | .error _ => .next (raiseFault .ill s)
  | .ok i => exec i s

/-- A presented request, taken and seen midway, after `n` of its operations (R51, R59, log 12). A request that faults
has nothing to be midway in. -/
def takeMidway (p : Presented) (n : Nat) (s : State) : Host.Outcome State Fault Refusal :=
  match decode p with
  | .error _ => .next (raiseFault .ill s)
  | .ok i => match sequenceOf i s with
    | .error k => .next (raiseFault k s)
    | .ok ops => .next (runMidway ops n s)

/-- The host's next action on a block that is ready. -/
def nextAction (s : State) : Host.Outcome State Fault Refusal :=
  match s.host with
  | [] => .next (idleCycle s)
  | .idle :: rest => .next (idleCycle { s with host := rest })
  | .rst :: rest => .next (applyReset { s with host := rest })
  | .present p :: rest => takeRequest p { s with host := rest }
  | .presentMidway p n :: rest => takeMidway p n { s with host := rest }

/-- Is `rst` the next thing the host does? -/
def resetNow (s : State) : Bool := s.host.head? == some .rst

/-- One step: a running request goes on to its response, and what the host presents meanwhile is held (R243, R246); reset
is the exception (R31, R234); a ready block does what the host's next action asks. -/
def hostStep (s : State) : Host.Outcome State Fault Refusal :=
  if s.busy && !resetNow s then .next (respond (complete s)) else nextAction s

/-- `p` is the host's next action, and the block is ready for it. -/
def presentNext (p : Presented) (s : State) : State :=
  { s with host := .present p :: s.host, busy := false, seq := [] }

end Sys2Proof.Machine
end

