-- ==== Sys2Proof/Machine/Step.lean ====
section
/-! DEFINITION. The step of the machine, and how the host places one word as the next to run. -/

namespace Sys2Proof.Machine

/-- One step: one host action, a whole request in one step (R29, R80, log 1). -/
def step (s : State) : Host.Outcome State Fault Refusal := hostStep s

/-- `s` with a word numbered as spec/opcode_table.json numbers it presented next: the machine has no program counter
(R34), it runs what is presented. A width no word has changes nothing. -/
def State.withFetchWord (s : State) (nbits w : Nat) : State :=
  match presentedOf nbits w with
  | some p => presentNext p s
  | none => s

end Sys2Proof.Machine
end

