-- ==== Sys2Proof/Machine/Assembler.lean ====
section
/-! DEFINITION. The request assembler (30_encoding.md R108, R109, R111): one request or pseudo-operation a line, each giving
one request. The spec leaves spaces and letter case open; log 15 says what is taken here. -/

namespace Sys2Proof.Machine

/-- One line: a request form of R108 or a pseudo-operation of R111, its numbers as written. -/
inductive AsmLine where
  | begin_ | end_ | rdbyte | burstrd
  | wrbyte (rel : Bool) (v : Nat)
  | rdreg (a : Nat)
  | wrreg (a v : Nat)
  | burstwr (bytes : List Nat)
  | rdclk (k : Nat)
  | wrclk (k v : Nat)
  | rdram (k : Nat)
  | wrram (k v : Nat)
  | settime (bytes : List Nat)
  | wpOff
  | trickleOff
  deriving DecidableEq, Repr

/-- Why a line is an assembly error and no request (R108, R111). -/
inductive AsmError where
  | byteOutOfRange (n : Nat)      -- an operand outside 0..255
  | indexOutOfRange (k : Nat)     -- a register index outside the pseudo-operation's range
  | notEightBytes                 -- BURSTWR or SETTIME without exactly eight operands
  | notANumber
  | unknownForm                   -- no form of R108 or R111 has this name and this many operands
  deriving DecidableEq, Repr

/-- An 8-bit operand (R108). -/
def asmByte (n : Nat) : Except AsmError Byte :=
  if n < 256 then .ok (BitVec.ofNat 8 n) else .error (.byteOutOfRange n)

/-- A register index of a pseudo-operation, `0..last` (R111). -/
def asmIndex (last k : Nat) : Except AsmError Nat :=
  if k ≤ last then .ok k else .error (.indexOutOfRange k)

/-- Eight 8-bit operands, seconds first (R108). -/
def asmBytes : List Nat → Except AsmError Bytes8
  | [n0, n1, n2, n3, n4, n5, n6, n7] => do
    let b0 ← asmByte n0
    let b1 ← asmByte n1
    let b2 ← asmByte n2
    let b3 ← asmByte n3
    let b4 ← asmByte n4
    let b5 ← asmByte n5
    let b6 ← asmByte n6
    let b7 ← asmByte n7
    return ⟨b0, b1, b2, b3, b4, b5, b6, b7⟩
  | _ => .error .notEightBytes

/-- The one request a line stands for (R108, R111). -/
def assemble : AsmLine → Except AsmError Instr
  | .begin_ => .ok .beginSession
  | .end_ => .ok .endSession
  | .rdbyte => .ok .rdbyte
  | .burstrd => .ok .burstrd
  | .wrbyte rel v => do return .wrbyte (← asmByte v) rel
  | .rdreg a => do return .rdreg (← asmByte a)
  | .wrreg a v => do return .wrreg (← asmByte a) (← asmByte v)
  | .burstwr bs => do return .burstwr (← asmBytes bs)
  | .settime bs => do return .burstwr (← asmBytes bs)
  | .rdclk k => do return .rdreg (← asmByte (0x80 + 2 * (← asmIndex 30 k)))
  | .wrclk k v => do return .wrreg (← asmByte (0x80 + 2 * (← asmIndex 30 k))) (← asmByte v)
  | .rdram k => do return .rdreg (← asmByte (0xC0 + 2 * (← asmIndex 31 k)))
  | .wrram k v => do return .wrreg (← asmByte (0xC0 + 2 * (← asmIndex 31 k))) (← asmByte v)
  | .wpOff => .ok (.wrreg 0x8E 0x00)
  | .trickleOff => .ok (.wrreg 0x90 0x00)

/-! ## Reading a line of text -/

def isBlank (c : Char) : Bool := c == ' ' || c == '\t' || c == '\r'

/-- The line without its comment (R108: `;` starts one). -/
def stripComment (cs : List Char) : List Char := cs.takeWhile fun c => c != ';'

def trimBlanks (cs : List Char) : List Char :=
  ((cs.dropWhile isBlank).reverse.dropWhile isBlank).reverse

/-- The pieces between commas. -/
def splitCommas : List Char → List (List Char)
  | [] => [[]]
  | c :: cs => match splitCommas cs with
    | [] => [[c]]
    | piece :: more => if c == ',' then [] :: piece :: more else (c :: piece) :: more

/-- A digit's value in base `base`. -/
def digitValue (base : Nat) (c : Char) : Option Nat :=
  let n := c.toNat
  let v := if 48 ≤ n && n ≤ 57 then n - 48
    else if 65 ≤ n && n ≤ 70 then n - 55
    else if 97 ≤ n && n ≤ 102 then n - 87
    else base
  if v < base then some v else none

def digitsValue (base : Nat) (acc : Nat) : List Char → Option Nat
  | [] => some acc
  | c :: cs => match digitValue base c with
    | some d => digitsValue base (acc * base + d) cs
    | none => none

/-- A number in `0x` hex or in decimal (R108). -/
def asmNumber (cs : List Char) : Except AsmError Nat :=
  let value := match cs with
    | [] => none
    | ['0', 'x'] => none
    | '0' :: 'x' :: ds => digitsValue 16 0 ds
    | ds => digitsValue 10 0 ds
  match value with
  | some n => .ok n
  | none => .error .notANumber

/-- The operands after the name: numbers between commas, none if there is no text. -/
def asmOperands (cs : List Char) : Except AsmError (List Nat) :=
  match trimBlanks cs with
  | [] => .ok []
  | text => (splitCommas text).mapM fun piece => asmNumber (trimBlanks piece)

/-- The form with this name and these operands (R108, R111). -/
def asmForm (name : String) (ops : List Nat) : Except AsmError AsmLine :=
  match name, ops with
  | "BEGIN", [] => .ok .begin_
  | "END", [] => .ok .end_
  | "RDBYTE", [] => .ok .rdbyte
  | "BURSTRD", [] => .ok .burstrd
  | "WRBYTE", [v] => .ok (.wrbyte false v)
  | "WRBYTE.REL", [v] => .ok (.wrbyte true v)
  | "RDREG", [a] => .ok (.rdreg a)
  | "WRREG", [a, v] => .ok (.wrreg a v)
  | "BURSTWR", bs => .ok (.burstwr bs)
  | "RDCLK", [k] => .ok (.rdclk k)
  | "WRCLK", [k, v] => .ok (.wrclk k v)
  | "RDRAM", [k] => .ok (.rdram k)
  | "WRRAM", [k, v] => .ok (.wrram k v)
  | "SETTIME", bs => .ok (.settime bs)
  | "WP.OFF", [] => .ok .wpOff
  | "TRICKLE.OFF", [] => .ok .trickleOff
  | _, _ => .error .unknownForm

/-- One line of a program (R108): nothing but blanks and a comment gives no request. -/
def parseLine (line : List Char) : Except AsmError (Option AsmLine) :=
  match trimBlanks (stripComment line) with
  | [] => .ok none
  | text => do
    let ops ← asmOperands (text.dropWhile fun c => !isBlank c)
    return some (← asmForm (String.ofList (text.takeWhile fun c => !isBlank c)) ops)

/-- A line of text to its request word (R109). -/
def assembleLine (line : List Char) : Except AsmError (Option Presented) := do
  match ← parseLine line with
  | none => return none
  | some l => return some (encode (← assemble l))

end Sys2Proof.Machine
end

