-- ==== Sys2Proof/Safety.lean ====
section
/-! DEFINITION. What counts as a safe state, in the terms the claims use: the line invariants (10_state.md R56, R57), the
trace invariant (R20, R58, R245), and a run without a recorded fault (60_exceptions.md R204). -/

namespace Sys2Proof.Machine

/-- The line invariants between requests: R56 (a driven data line in a session has the clock low) and R57 (a session has
the clock driven). -/
def LinesOk (l : Lines) : Prop :=
  (l.ce = true → l.ioDir = .output → l.sclk = false) ∧ (l.ce = true → l.sclkOe = true)

/-- A ready block has an idle sequencer (R59), and the lines meet their invariants now, or will when the running request
completes. -/
def LinesInv (s : State) : Prop :=
  (s.busy = false → s.seq = []) ∧ LinesOk (complete s).lines

/-- The trace and the lines agree: the lines are what the trace since reset leaves (R20). -/
def TraceShowsLines (s : State) : Prop := replay s.trace resetLines = s.lines

/-- The wire discipline: every event since reset stands where it may (R58, R137, R245), the select-inactive time is never
owed when a request has ended, and the trace shows the lines; of a running request, all this when it completes. -/
def WireInv (s : State) : Prop :=
  LinesInv s ∧ TraceShowsLines (complete s) ∧ traceOk (complete s).trace resetWire = true ∧
  (wireAfter (complete s).trace resetWire).offOwed = false

/-- `s` with its lines changed to `l` and the events `t` appended to its trace. -/
def moved (l : Lines) (t : PadTrace) (s : State) : State := { s with lines := l, trace := s.trace ++ t }

/-- The state a completed request leaves, the data registers apart: its lines, its trace appended, BUSY 0 and a response
without error (R32, R45, R150). -/
def afterRequest (l : Lines) (t : PadTrace) (s : State) : State :=
  { moved l t s with busy := false, rspValid := true, rspErr := false, seq := [] }

/-- The same for a request that read one byte `x`: RDATA holds it, and eight assumed answers of the device are used up
(R41, R136). -/
def afterRead (l : Lines) (t : PadTrace) (x : Byte) (s : State) : State :=
  { afterRequest l t s with rdata := x, shift := x, device := s.device.drop 8 }

/-- The same for a session that read eight bytes `b` into the burst buffer (R60, R160). -/
def afterBurst (l : Lines) (t : PadTrace) (b : Bytes8) (s : State) : State :=
  { afterRequest l t s with rdata := b.b7, shift := b.b7, burst := b, device := s.device.drop 64 }

/-- The state a faulting request leaves (R203). -/
def afterFault (k : FaultKind) (s : State) : State :=
  { s with
    errIll := if k = .ill then true else s.errIll
    errNosess := if k = .nosess then true else s.errNosess
    errDir := if k = .dir then true else s.errDir
    busy := false, rspValid := true, rspErr := true }

/-- The lines after a session of the Register Protocol Layer: `d` and `b` are what its last byte left (R152, R155). -/
def sessionLines (d : IoDir) (b : Bool) : Lines :=
  { ce := false, sclk := false, sclkOe := true, ioDir := d, ioOut := b }

/-- The trace of a session that reads one byte (R152). -/
def readTrace (ceWas : Bool) (cmd x : Byte) : PadTrace :=
  beginTrace ceWas ++ wrbyteTrace cmd true ++ rdbyteTrace x ++ endTrace

/-- The trace of a session that writes one byte (R155). -/
def writeTrace (ceWas : Bool) (cmd v : Byte) : PadTrace :=
  beginTrace ceWas ++ wrbyteTrace cmd false ++ wrbyteTrace v false ++ endTrace

/-- The trace of a burst read (R160). -/
def burstReadTrace (ceWas : Bool) (cmd : Byte) (t : Bytes8) : PadTrace :=
  beginTrace ceWas ++ wrbyteTrace cmd true ++ rdbytesTrace t ++ endTrace

/-- The trace of a burst write (R167). -/
def burstWriteTrace (ceWas : Bool) (cmd : Byte) (b : Bytes8) : PadTrace :=
  beginTrace ceWas ++ wrbyteTrace cmd false ++ wrbytesTrace b ++ endTrace

/-- `x` is the byte the device presents to an RDBYTE that starts after the events `pre`: bit `i` is the device's answer
to the `i`-th sample (R27, R136, R137). -/
def SampledByte (s : State) (pre : PadTrace) (x : Byte) : Prop :=
  ∀ i : Fin 8, bitOf x i =
    deviceAnswer { s with
      device := s.device.drop i.val
      trace := s.trace ++ (pre ++ (rdbyteTrace x).take (5 * i.val + 4)) }

/-- `t` are the eight bytes the device presents to eight RDBYTEs in a row (R160). -/
def SampledBytes (s : State) (pre : PadTrace) (t : Bytes8) : Prop :=
  ∀ k i : Fin 8, bitOf (byteAt t k) i =
    deviceAnswer { s with
      device := s.device.drop (8 * k.val + i.val)
      trace := s.trace ++ (pre ++ (rdbytesTrace t).take (40 * k.val + 5 * i.val + 4)) }

/-- The bits of a byte, least significant first: what a device that presents it answers (R75). -/
def bitsOf (x : Byte) : List Bool := indices8.map (bitOf x)

/-- The bits of eight bytes, byte 0 first (R76). -/
def bitsOf8 (t : Bytes8) : List Bool := indices8.flatMap fun k => bitsOf (byteAt t k)

/-- Several requests, one after the other (R80); the first outcome that is no next state ends them. -/
def execAll : List Instr → State → Host.Outcome State Fault Refusal
  | [], s => .next s
  | i :: rest, s => match exec i s with
    | .next t => execAll rest t
    | .fault r => .fault r
    | .refused r => .refused r

/-- No fault has been recorded (R204, R214). -/
def NoError (s : State) : Prop := s.errIll = false ∧ s.errNosess = false ∧ s.errDir = false

end Sys2Proof.Machine
end

