-- ==== Sys2Proof/Certificates/Slice0/Obligations.lean ====
section
/-! DEFINITION. The statements for the provers, by the spec's files. `s`, `t`, `u` are states; a statement about every state
holds in states no run reaches, unless an invariant stands in its premise. -/

open Sys2Proof Sys2Proof.Machine

/-! ## Encoding (30_encoding.md) -/

/-- R93, R94: a word is legal exactly when `OP` is 1 to 8 and `RSV` is 0, and an illegal word presented to a ready block is
the fault ILL: the state before, plus the error bit and a response with an error. -/
def Obligations.RequestWordLegality : Prop :=
  ∀ w : ReqWord,
    ((∃ i, decode (.req w) = .ok i) ↔
      1 ≤ w.toNat / 2 ^ 76 ∧ w.toNat / 2 ^ 76 ≤ 8 ∧ w.toNat / 2 ^ 73 % 8 = 0) ∧
    ∀ (s : State) (rest : List HostAction),
      ¬ (1 ≤ w.toNat / 2 ^ 76 ∧ w.toNat / 2 ^ 76 ≤ 8 ∧ w.toNat / 2 ^ 73 % 8 = 0) →
      s.busy = false → s.host = .present (.req w) :: rest →
      step s = .next (afterFault .ill { s with host := rest })

/-- R98: decoding undoes encoding for every request, and encoding undoes decoding for every legal word whose ignored
fields are 0. -/
def Obligations.RequestEncodingRoundTrip : Prop :=
  (∀ (i : Instr) (w : ReqWord), encode i = .req w → decode (.req w) = .ok i) ∧
  (∀ (w : ReqWord) (i : Instr), decode (.req w) = .ok i → ignoredFieldsZero (.req w) = true → encode i = .req w)

/-- R100, R102, R104: the same for the wire commands, for every well-formed one (the wire word is the model's own form,
log 4). -/
def Obligations.WireEncodingRoundTrip : Prop :=
  (∀ (i : Instr) (w : WireWord), i.wellFormed = true → encode i = .wire w → decode (.wire w) = .ok i) ∧
  (∀ (w : WireWord) (i : Instr), decode (.wire w) = .ok i → ignoredFieldsZero (.wire w) = true → encode i = .wire w)

/-- R95: two words that agree on `OP`, `RSV` and the fields their operation uses (R91) decode alike. -/
def Obligations.IgnoredFieldsDoNotMatter : Prop :=
  ∀ w w' : ReqWord, reqOp w = reqOp w' → reqRsv w = reqRsv w' →
    (reqOp w = 3#4 → reqRel w = reqRel w' ∧ reqV w = reqV w') →
    (reqOp w = 5#4 → reqA w = reqA w') →
    (reqOp w = 6#4 → reqA w = reqA w' ∧ reqV w = reqV w') →
    (reqOp w = 8#4 → reqD w = reqD w') →
    decode (.req w) = decode (.req w')

/-- Whatever is decoded is well formed (R70, R102, R104; log 6 for CMD_NOMARK). -/
def Obligations.DecodedIsWellFormed : Prop :=
  ∀ (p : Presented) (i : Instr), decode p = .ok i → i.wellFormed = true

/-- R102, R103: the classes of the 256 command bytes, first match, and how many bytes each class has. -/
def Obligations.CommandClassesPartitionBytes : Prop :=
  (∀ v : Byte,
    (classify v = .burstRd ↔ v = 0xBF) ∧ (classify v = .burstWr ↔ v = 0xBE) ∧
    (classify v = .clkRd ↔ v &&& 0xC1 = 0x81 ∧ v ≠ 0xBF) ∧
    (classify v = .clkWr ↔ v &&& 0xC1 = 0x80 ∧ v ≠ 0xBE) ∧
    (classify v = .ramRd ↔ v &&& 0xC1 = 0xC1) ∧ (classify v = .ramWr ↔ v &&& 0xC1 = 0xC0) ∧
    (classify v = .nomark ↔ v &&& 0x80 = 0x00)) ∧
  [CmdClass.burstRd, .burstWr, .clkRd, .clkWr, .ramRd, .ramWr, .nomark].map
    (fun c => (List.range 256).countP fun n => classify (BitVec.ofNat 8 n) == c) = [1, 1, 31, 31, 32, 32, 128]

/-- R100: the command byte's bits, and the fields read back. -/
def Obligations.CommandByteLayout : Prop :=
  ∀ (rc : Bool) (reg : BitVec 5) (rd : Bool),
    (cmdByte rc reg rd).toNat = 128 + 64 * rc.toNat + 2 * reg.toNat + rd.toNat ∧
    cmdMark (cmdByte rc reg rd) = true ∧ cmdRc (cmdByte rc reg rd) = rc ∧
    cmdReg (cmdByte rc reg rd) = reg ∧ cmdRdBit (cmdByte rc reg rd) = rd

/-- R151: the command byte of an address has the read bit set or cleared and bits 7:1 passed through, whatever they are. -/
def Obligations.AddressBitsPassThrough : Prop :=
  ∀ (a : Byte) (i : Fin 8),
    bitOf (cmdRd a) i = (if i = 0 then true else bitOf a i) ∧
    bitOf (cmdWr a) i = (if i = 0 then false else bitOf a i)

/-- R109, R100: words written out from the encodings decode to the instructions they stand for (the last three in
the model's wire form, log 4). -/
def Obligations.WrittenWordsDecode : Prop :=
  decodeTableWord 80 0x10000000000000000000 = some .beginSession ∧
  decodeTableWord 80 0x310000000000000000A5 = some (.wrbyte 0xA5 true) ∧
  decodeTableWord 80 0x608E0000000000000012 = some (.wrreg 0x8E 0x12) ∧
  decodeTableWord 80 0x80000024010101103000 = some (.burstwr ⟨0x00, 0x30, 0x10, 0x01, 0x01, 0x01, 0x24, 0x00⟩) ∧
  decodeTableWord 80 0x12000000000000000000 = none ∧
  decodeTableWord 8 0x85 = some (.cmdClkRd 2) ∧ decodeTableWord 8 0xBF = some .cmdBurstRd ∧
  decodeTableWord 8 0xFE = some (.cmdRamWr 31 0x00)

/-- R108, R111: WRBYTE's operand is a byte or an assembly error, and each pseudo-operation expands to its request. That an
index over 30 in RDCLK is an error is the model's choice (log 15). -/
def Obligations.AssemblerExpandsForms : Prop :=
  (∀ (v : Nat) (rel : Bool), assemble (.wrbyte rel v) =
    if v < 256 then .ok (.wrbyte (BitVec.ofNat 8 v) rel) else .error (.byteOutOfRange v)) ∧
  (∀ k, k ≤ 30 → assemble (.rdclk k) = .ok (.rdreg (BitVec.ofNat 8 (0x80 + 2 * k)))) ∧
  (∀ k v, k ≤ 30 → v < 256 →
    assemble (.wrclk k v) = .ok (.wrreg (BitVec.ofNat 8 (0x80 + 2 * k)) (BitVec.ofNat 8 v))) ∧
  (∀ k, k ≤ 31 → assemble (.rdram k) = .ok (.rdreg (BitVec.ofNat 8 (0xC0 + 2 * k)))) ∧
  (∀ k v, k ≤ 31 → v < 256 →
    assemble (.wrram k v) = .ok (.wrreg (BitVec.ofNat 8 (0xC0 + 2 * k)) (BitVec.ofNat 8 v))) ∧
  (∀ k, 30 < k → assemble (.rdclk k) = .error (.indexOutOfRange k)) ∧
  (∀ bs, assemble (.settime bs) = assemble (.burstwr bs)) ∧
  assemble .wpOff = .ok (.wrreg 0x8E 0x00) ∧ assemble .trickleOff = .ok (.wrreg 0x90 0x00)

/-! ## The step, the request channel, reset (00_scope.md, 10_state.md, 70_reset_and_hazards.md) -/

/-- R29, R80: a step of a ready block runs the instruction the presented word decodes to, and takes it off the channel (one step per
request is the model's form, log 1). -/
def Obligations.StepRunsPresentedInstruction : Prop :=
  ∀ (s : State) (p : Presented) (i : Instr) (rest : List HostAction),
    s.busy = false → s.host = .present p :: rest → decode p = .ok i →
    step s = exec i { s with host := rest }

/-- A word placed by `withFetchWord` is the very next to run, from any state (the model's own interface, log 1). -/
def Obligations.PlacedWordRunsNext : Prop :=
  ∀ (s : State) (nbits w : Nat) (i : Instr), decodeTableWord nbits w = some i →
    step (s.withFetchWord nbits w) = exec i { s with busy := false, seq := [] }

/-- R213, R231: with nothing presented a ready block keeps its whole state; only a response is over (R32). That `rspValid`
lasts just until the next step (log 14), and that `rspErr` keeps its value without a response (log 7), are the model's
choices. -/
def Obligations.IdleBlockKeepsState : Prop :=
  ∀ s : State, s.busy = false → (s.host = [] ∨ ∃ rest, s.host = .idle :: rest) →
    step s = .next { s with rspValid := false, host := s.host.tail }

/-- R243, R246: while a request runs, a presented request is held; the running one completes first, and then the held one
is taken. -/
def Obligations.PresentedRequestIsHeldWhileBusy : Prop :=
  ∀ (s : State) (p : Presented) (i : Instr) (rest : List HostAction),
    s.busy = true → s.host = .present p :: rest → decode p = .ok i →
    ∃ t, step s = .next t ∧ t = respond (complete s) ∧ t.busy = false ∧ t.seq = [] ∧ t.rspValid = true ∧
      t.host = s.host ∧ step t = exec i { t with host := rest }

/-- R29: a request seen midway, and then left to complete, ends in the state the request gives when it runs as one step;
one that is not busy midway has faulted, and gives the same too. (Seeing a request midway is the model's form, log 12.) -/
def Obligations.MidwayRequestEqualsWholeRequest : Prop :=
  ∀ (s t : State) (p : Presented) (n : Nat) (rest : List HostAction),
    s.busy = false → step { s with host := .presentMidway p n :: rest } = .next t →
    (t.busy = true → resetNow t = false → step t = step { s with host := .present p :: rest }) ∧
    (t.busy = false → step { s with host := .present p :: rest } = .next t)

/-- R51: while a request runs, IMG, IMG_VALID and every read of IMG, SEC, MIN, HOUR and DFLAGS are those from before it. (Seeing
a request midway is the model's form, log 12.) -/
def Obligations.ImageIsOldWhileBusy : Prop :=
  ∀ (s t : State) (p : Presented) (n : Nat) (rest : List HostAction),
    s.busy = false → step { s with host := .presentMidway p n :: rest } = .next t → t.busy = true →
    t.img = s.img ∧ t.imgValid = s.imgValid ∧
    ∀ (index : BitVec 4) (draw draw' : Byte), 3#4 ≤ index → readPort index draw t = readPort index draw' s

/-- R234: `rst` aborts whatever runs: no response, the lines and IMG at their reset values, the burst buffer discarded; the
device has seen the trace as far as it went (`past`, `device`: log 3). The values reset gives to `rspErr` (log 7) and to
`shift` and `burst` (log 13) are the model's choices. -/
def Obligations.ResetAbortsRunningRequest : Prop :=
  ∀ (s : State) (rest : List HostAction), s.host = .rst :: rest →
    step s = .next { State.reset with past := s.past ++ [s.trace], device := s.device, host := rest }

/-- R234: a reset may cut a running request at any of its events, the first moment and its final hold included: for every
cut of the events a request appends, there is a busy state whose trace ends at the cut, and a reset there leaves the reset
state, with no response and with that trace put away. (Seeing a request midway is log 12; `past`, `device`: log 3; the values
reset gives to `rspErr`, `shift` and `burst`: logs 7 and 13.) -/
def Obligations.ResetCutsTraceAtAnyEvent : Prop :=
  ∀ (s t : State) (p : Presented) (i : Instr) (rest : List HostAction) (u v : PadTrace),
    s.busy = false → decode p = .ok i → exec i s = .next t → t.rspErr = false → t.trace = s.trace ++ (u ++ v) →
    ∃ (n : Nat) (m : State),
      step { s with host := .presentMidway p n :: .rst :: rest } = .next m ∧ m.busy = true ∧
      m.trace = s.trace ++ u ∧
      step m = .next { State.reset with past := s.past ++ [s.trace ++ u], device := m.device, host := rest }

/-- R63: every value after reset, the derived ones too. (`rspErr`, `past`, `device` and `host` are not the spec's and are
not stated here.) -/
def Obligations.ResetValues : Prop :=
  State.reset.lines = { ce := false, sclk := false, sclkOe := false, ioDir := .input, ioOut := false } ∧
  State.reset.rdata = 0x00 ∧ State.reset.img = ⟨0, 0, 0, 0, 0, 0, 0, 0⟩ ∧ State.reset.imgValid = false ∧
  State.reset.busy = false ∧ NoError State.reset ∧ State.reset.seq = [] ∧ State.reset.trace = [] ∧
  State.reset.rspValid = false ∧
  sec imageLayout State.reset.img = 0x00 ∧ minute imageLayout State.reset.img = 0x00 ∧
  hour imageLayout State.reset.img = 0x00 ∧ dflags imageLayout State.reset.img = 0x10 ∧
  phase State.reset.lines = .idle

/-! ## Bus Driver (40_bus_driver.md) -/

/-- R121, R122, R123: BEGIN, in every state: its lines, its trace with the extra hold exactly in an open session, and
nothing else but the response. -/
def Obligations.BeginOpensSession : Prop :=
  ∀ s : State, exec .beginSession s = .next (afterRequest
    { ce := true, sclk := false, sclkOe := true, ioDir := .output, ioOut := s.lines.ioOut }
    (if s.lines.ce
      then [.ce false, .hold .ceOff, .sclkOe, .ioDir .output, .sclk false, .ce true, .hold .ceSu]
      else [.ce false, .sclkOe, .ioDir .output, .sclk false, .ce true, .hold .ceSu]) s)

/-- R125, R126: END, in every state, changes CE alone. -/
def Obligations.EndClosesSession : Prop :=
  ∀ s : State, exec .endSession s = .next (afterRequest
    { s.lines with ce := false } [.ce false, .hold .ceOff] s)

/-- R130, R131: WRBYTE: the two faults, and otherwise the trace and the lines, with and without release. -/
def Obligations.WrbyteSendsByte : Prop :=
  ∀ (v : Byte) (rel : Bool) (s : State),
    (s.lines.ce = false → exec (.wrbyte v rel) s = .next (afterFault .nosess s)) ∧
    (s.lines.ce = true → s.lines.ioDir = .input → exec (.wrbyte v rel) s = .next (afterFault .dir s)) ∧
    (s.lines.ce = true → s.lines.ioDir = .output → exec (.wrbyte v rel) s = .next (afterRequest
      { s.lines with sclk := rel, ioDir := if rel then .input else .output, ioOut := v.getLsbD 7 }
      (indices8.flatMap fun i =>
        [.io (v.getLsbD i), .hold .dsu, .sclk true, .hold .ckh] ++
        if rel = true ∧ i = 7 then [.ioDir .input] else [.sclk false, .hold .ckl]) s))

/-- R136, R137: RDBYTE: the two faults, and otherwise a byte whose bit `i` is the device's answer to the `i`-th sample,
with its trace and lines. -/
def Obligations.RdbyteReceivesByte : Prop :=
  ∀ s : State,
    (s.lines.ce = false → exec .rdbyte s = .next (afterFault .nosess s)) ∧
    (s.lines.ce = true → s.lines.ioDir = .output → exec .rdbyte s = .next (afterFault .dir s)) ∧
    (s.lines.ce = true → s.lines.ioDir = .input → ∃ x : Byte, SampledByte s [] x ∧
      exec .rdbyte s = .next (afterRead { s.lines with sclk := false }
        (indices8.flatMap fun i =>
          [.sclk true, .hold .ckh, .sclk false, .hold .ckl, .sample (x.getLsbD i)]) x s))

/-- R75, R136: a device that presents the bits of `x`, least significant first, is read as `x`. -/
def Obligations.RdbyteReadsLeastSignificantFirst : Prop :=
  ∀ (s : State) (x : Byte) (rest : List Bool),
    s.lines.ce = true → s.lines.ioDir = .input → s.device = bitsOf x ++ rest →
    ∃ t, exec .rdbyte s = .next t ∧ t.rdata = x ∧ t.device = rest

/-- R141: loopback: a device that answers with the byte just written gives it back, for every byte. -/
def Obligations.LoopbackReturnsWrittenByte : Prop :=
  ∀ (s : State) (v : Byte) (rest : List Bool),
    s.lines.ce = true → s.lines.ioDir = .output → s.device = bitsOf v ++ rest →
    ∃ t u, exec (.wrbyte v true) s = .next t ∧ exec .rdbyte t = .next u ∧ u.rdata = v

/-- R133, R139: clock edges and samples of WRBYTE, of RDBYTE, and of a released command followed by RDBYTEs. -/
def Obligations.ByteEdgeCounts : Prop :=
  (∀ (v : Byte) (rel : Bool), risingEdges false (wrbyteTrace v rel) = 8 ∧
    fallingEdges false (wrbyteTrace v rel) = if rel then 7 else 8) ∧
  (∀ (x : Byte) (level : Bool), risingEdges level (rdbyteTrace x) = (if level then 7 else 8) ∧
    fallingEdges level (rdbyteTrace x) = 8 ∧ sampleCount (rdbyteTrace x) = 8) ∧
  (∀ (c x : Byte) (more : List Byte),
    risingEdges false (wrbyteTrace c true ++ (x :: more).flatMap rdbyteTrace) = 8 + 7 + 8 * more.length ∧
    fallingEdges false (wrbyteTrace c true ++ (x :: more).flatMap rdbyteTrace) = 7 + 8 * (more.length + 1))

/-- R54: the phase after each primitive request, from each phase. -/
def Obligations.PhaseTransitions : Prop :=
  ∀ s : State,
    (∃ t, exec .beginSession s = .next t ∧ phase t.lines = .write) ∧
    (∃ t, exec .endSession s = .next t ∧ phase t.lines = .idle) ∧
    (∀ (v : Byte) (rel : Bool),
      (phase s.lines = .idle → exec (.wrbyte v rel) s = .next (afterFault .nosess s)) ∧
      (phase s.lines = .write → ∃ t, exec (.wrbyte v rel) s = .next t ∧ t.rspErr = false ∧
        phase t.lines = if rel then .turned else .write) ∧
      (phase s.lines = .turned ∨ phase s.lines = .read →
        exec (.wrbyte v rel) s = .next (afterFault .dir s))) ∧
    (phase s.lines = .idle → exec .rdbyte s = .next (afterFault .nosess s)) ∧
    (phase s.lines = .write → exec .rdbyte s = .next (afterFault .dir s)) ∧
    (phase s.lines = .turned ∨ phase s.lines = .read → ∃ t, exec .rdbyte s = .next t ∧ t.rspErr = false ∧
      phase t.lines = .read)

/-! ## Register Protocol Layer (41_register_protocol.md) -/

/-- R152: RDREG, in every state and for every address. -/
def Obligations.RdregReadsRegister : Prop :=
  ∀ (a : Byte) (s : State), ∃ x : Byte,
    SampledByte s (beginTrace s.lines.ce ++ wrbyteTrace (a ||| 0x01) true) x ∧
    exec (.rdreg a) s = .next (afterRead (sessionLines .input (bitOf a 7))
      (readTrace s.lines.ce (a ||| 0x01) x) x s)

/-- R155: WRREG, in every state and for every address. -/
def Obligations.WrregWritesRegister : Prop :=
  ∀ (a v : Byte) (s : State),
    exec (.wrreg a v) s = .next (afterRequest (sessionLines .output (bitOf v 7))
      (writeTrace s.lines.ce (a &&& 0xFE) v) s)

/-- R160, R162, R163: BURSTRD, in every state: byte `k` it reads is IMG[k], RDATA is byte 7, IMG_VALID is set. -/
def Obligations.BurstrdReadsImage : Prop :=
  ∀ s : State, ∃ b : Bytes8,
    SampledBytes s (beginTrace s.lines.ce ++ wrbyteTrace 0xBF true) b ∧
    exec .burstrd s = .next { afterBurst (sessionLines .input true) (burstReadTrace s.lines.ce 0xBF b) b s with
      img := b, imgValid := true }

/-- R76, R162: a device that answers a BURSTRD with eight bytes, each least significant bit first, fills the image with
them in order. -/
def Obligations.BurstrdFillsImageInOrder : Prop :=
  ∀ (s : State) (b : Bytes8) (rest : List Bool), s.device = bitsOf8 b ++ rest →
    ∃ t, exec .burstrd s = .next t ∧ t.img = b ∧ t.imgValid = true ∧ t.rdata = b.b7 ∧ t.device = rest

/-- R167: BURSTWR, in every state and for every payload. -/
def Obligations.BurstwrWritesImage : Prop :=
  ∀ (b : Bytes8) (s : State),
    exec (.burstwr b) s = .next (afterRequest (sessionLines .output (bitOf b.b7 7))
      (burstWriteTrace s.lines.ce 0xBE b) s)

/-- R150, R154: a composite has exactly the effect of its primitive sequence, run as requests of their own; BURSTRD's
burst buffer and image come on top. -/
def Obligations.CompositeEqualsPrimitiveSequence : Prop :=
  ∀ s : State,
    (∀ a, exec (.rdreg a) s =
      execAll [.beginSession, .wrbyte (a ||| 0x01) true, .rdbyte, .endSession] s) ∧
    (∀ a v, exec (.wrreg a v) s =
      execAll [.beginSession, .wrbyte (a &&& 0xFE) false, .wrbyte v false, .endSession] s) ∧
    (∀ b, exec (.burstwr b) s = execAll ([.beginSession, .wrbyte 0xBE false] ++
      indices8.map (fun k => .wrbyte (byteAt b k) false) ++ [.endSession]) s) ∧
    (∃ t, exec .burstrd s = .next t ∧
      execAll ([.beginSession, .wrbyte 0xBF true] ++ indices8.map (fun _ => .rdbyte) ++ [.endSession]) s =
        .next { t with burst := s.burst, img := s.img, imgValid := s.imgValid })

/-- R55: each composite ends in phase IDLE, whatever state it starts in, and none of them faults. -/
def Obligations.CompositesEndIdleWithoutFault : Prop :=
  ∀ (s : State) (i : Instr),
    (∃ a, i = .rdreg a) ∨ (∃ a v, i = .wrreg a v) ∨ i = .burstrd ∨ (∃ b, i = .burstwr b) →
    ∃ t, exec i s = .next t ∧ phase t.lines = .idle ∧ t.rspErr = false ∧
      t.errIll = s.errIll ∧ t.errNosess = s.errNosess ∧ t.errDir = s.errDir

/-- R161, R164: a BURSTRD is one session: of CE it has only its BEGIN's two events and its END's one; it drives the bits
of 0xBF; and all its 64 samples come after the eighth rising clock edge. -/
def Obligations.BurstrdIsOneSessionCommandFirst : Prop :=
  ∀ s : State, ∃ t u, exec .burstrd s = .next t ∧ t.trace = s.trace ++ u ∧
    u.filter isCe = [.ce false, .ce true, .ce false] ∧ drivenBits u = bitsOf 0xBF ∧
    sampleCount u = 64 ∧ sampleCount (afterRising 8 s.lines.sclk u) = 64

/-- The clock edges and samples the rules count for each composite that starts with the clock low (R139, R152, R155,
R160, R167). -/
def Obligations.CompositeEdgeCounts : Prop :=
  ∀ (ceWas : Bool) (c v : Byte) (b : Bytes8),
    risingEdges false (readTrace ceWas c v) = 15 ∧ fallingEdges false (readTrace ceWas c v) = 15 ∧
    risingEdges false (writeTrace ceWas c v) = 16 ∧ fallingEdges false (writeTrace ceWas c v) = 16 ∧
    risingEdges false (burstReadTrace ceWas c b) = 71 ∧ fallingEdges false (burstReadTrace ceWas c b) = 71 ∧
    sampleCount (burstReadTrace ceWas c b) = 64 ∧
    risingEdges false (burstWriteTrace ceWas c b) = 72 ∧ fallingEdges false (burstWriteTrace ceWas c b) = 72

/-- The read commands (R171, R173), run by themselves as the session each stands for (the model's form, log 4), in every
state; and the RDREGs that send them. -/
def Obligations.WireReadCommands : Prop :=
  ∀ (s : State) (rc : Bool) (reg : BitVec 5), (rc = true ∨ reg ≠ 31#5) →
    (∃ x : Byte,
      SampledByte s (beginTrace s.lines.ce ++ wrbyteTrace (cmdByte rc reg true) true) x ∧
      exec (if rc then .cmdRamRd reg else .cmdClkRd reg) s = .next (afterRead (sessionLines .input true)
        (readTrace s.lines.ce (cmdByte rc reg true) x) x s)) ∧
    ∀ a : Byte, cmdMark a = true → cmdRc a = rc → cmdReg a = reg →
      exec (.rdreg a) s = exec (if rc then .cmdRamRd reg else .cmdClkRd reg) s

/-- The write commands (R172, R174), run by themselves as the session each stands for (the model's form, log 4), in every
state; and the WRREGs that send them. -/
def Obligations.WireWriteCommands : Prop :=
  ∀ (s : State) (rc : Bool) (reg : BitVec 5) (v : Byte), (rc = true ∨ reg ≠ 31#5) →
    exec (if rc then .cmdRamWr reg v else .cmdClkWr reg v) s = .next (afterRequest
      (sessionLines .output (bitOf v 7)) (writeTrace s.lines.ce (cmdByte rc reg false) v) s) ∧
    ∀ a : Byte, cmdMark a = true → cmdRc a = rc → cmdReg a = reg →
      exec (.wrreg a v) s = exec (if rc then .cmdRamWr reg v else .cmdClkWr reg v) s

/-- A CMD_NOMARK byte (R177) runs the single-register sequence, a read when its bit 0 is set and a write when not (the
model's choice, logs 4 and 6), in every state; the RDREG or WRREG of an address with bit 7 clear sends it. -/
def Obligations.NomarkCommand : Prop :=
  ∀ (s : State) (bits : BitVec 7) (v : Byte),
    (bits.getLsbD 0 = true → ∃ x : Byte,
      SampledByte s (beginTrace s.lines.ce ++ wrbyteTrace (nomarkByte bits) true) x ∧
      exec (.cmdNomark bits v) s = .next (afterRead (sessionLines .input false)
        (readTrace s.lines.ce (nomarkByte bits) x) x s)) ∧
    (bits.getLsbD 0 = false → exec (.cmdNomark bits v) s = .next (afterRequest
      (sessionLines .output (bitOf v 7)) (writeTrace s.lines.ce (nomarkByte bits) v) s)) ∧
    ∀ a : Byte, cmdMark a = false →
      (nomarkByte bits = cmdRd a → exec (.rdreg a) s = exec (.cmdNomark bits v) s) ∧
      (nomarkByte bits = cmdWr a → exec (.wrreg a v) s = exec (.cmdNomark bits v) s)

/-- The burst commands (R175, R176), run by themselves as the session each stands for (the model's form, log 4), in every
state; BURSTRD and BURSTWR send them with eight bytes, and RDREG and WRREG of index 31 send the same byte with one. Run by
itself, CMD_BURST_RD leaves the image: only the request BURSTRD writes it (R42, R165; the model's choice, log 5). -/
def Obligations.BurstCommands : Prop :=
  ∀ (s : State) (b : Bytes8) (v : Byte),
    (∃ t : Bytes8,
      SampledBytes s (beginTrace s.lines.ce ++ wrbyteTrace 0xBF true) t ∧
      exec .cmdBurstRd s = .next (afterBurst (sessionLines .input true) (burstReadTrace s.lines.ce 0xBF t) t s) ∧
      exec .burstrd s = .next { afterBurst (sessionLines .input true) (burstReadTrace s.lines.ce 0xBF t) t s with
        img := t, imgValid := true }) ∧
    exec (.cmdBurstWr b) s = .next (afterRequest (sessionLines .output (bitOf b.b7 7))
      (burstWriteTrace s.lines.ce 0xBE b) s) ∧
    exec (.burstwr b) s = exec (.cmdBurstWr b) s ∧
    (∀ a : Byte, a = 0xBE ∨ a = 0xBF → ∃ x : Byte, exec (.rdreg a) s = .next (afterRead
      (sessionLines .input true) (readTrace s.lines.ce 0xBF x) x s)) ∧
    (∀ a : Byte, a = 0xBE ∨ a = 0xBF → exec (.wrreg a v) s = .next (afterRequest
      (sessionLines .output (bitOf v 7)) (writeTrace s.lines.ce 0xBE v) s))

/-! ## Faults (60_exceptions.md) -/

/-- R203: a fault is precise. A request that answers with an error has the state before it, with one error bit set, BUSY 0
and the response; it is a WRBYTE or an RDBYTE, or its word spells no request (R201). -/
def Obligations.FaultIsPrecise : Prop :=
  (∀ (i : Instr) (s t : State), exec i s = .next t → t.rspErr = true →
    ((∃ v rel, i = .wrbyte v rel) ∨ i = .rdbyte) ∧
    (t = afterFault .nosess s ∨ t = afterFault .dir s) ∧
    t.trace = s.trace ∧ t.lines = s.lines ∧ t.rdata = s.rdata ∧ t.img = s.img ∧ t.imgValid = s.imgValid ∧
    t.busy = false ∧ t.rspValid = true ∧ (hostOutputs t).rspData = s.rdata) ∧
  (∀ (w : ReqWord) (s : State), (∀ i, decode (.req w) ≠ .ok i) → takeRequest (.req w) s = .next (afterFault .ill s))

/-- R204: each error bit is set by its fault, and sticky: no step but a reset clears one, and a reset clears all. -/
def Obligations.ErrorBitsAreSticky : Prop :=
  (∀ s : State, (raiseFault .ill s).errIll = true ∧ (raiseFault .nosess s).errNosess = true ∧
    (raiseFault .dir s).errDir = true) ∧
  ∀ s t : State, step s = .next t →
    (resetNow s = false →
      (s.errIll = true → t.errIll = true) ∧ (s.errNosess = true → t.errNosess = true) ∧
      (s.errDir = true → t.errDir = true)) ∧
    (resetNow s = true → NoError t)

/-! ## Whole-machine rules -/

/-- R252, R205: every request ends in a next state with a response and BUSY 0, after at most 441 pad events (a BURSTWR in
an open session); and every step has a next state. -/
def Obligations.EveryRequestEnds : Prop :=
  (∀ (i : Instr) (s : State), ∃ t, exec i s = .next t ∧ t.busy = false ∧ t.rspValid = true ∧
    t.trace.length ≤ s.trace.length + 441) ∧
  (∀ s : State, ∃ t, step s = .next t)

/-- BURSTRD is the only request that writes IMG (R165); nor does a wire command run by itself (the model's choice, log 5). -/
def Obligations.OnlyBurstrdWritesImage : Prop :=
  ∀ (i : Instr) (s t : State), i ≠ .burstrd → exec i s = .next t → t.img = s.img ∧ t.imgValid = s.imgValid

/-- R41: RDATA is written by requests that read a byte from the device, and by no other. That the others also leave the
assumed answers (log 2) and the shift register and burst buffer (log 13) is the model's choice. A CMD_NOMARK byte that
writes: `NomarkCommand`. -/
def Obligations.OnlyReadsWriteRdata : Prop :=
  ∀ (i : Instr) (s t : State),
    (i = .beginSession ∨ i = .endSession ∨ (∃ v rel, i = .wrbyte v rel) ∨ (∃ a v, i = .wrreg a v) ∨
      (∃ b, i = .burstwr b) ∨ (∃ b, i = .cmdBurstWr b) ∨ (∃ r v, i = .cmdClkWr r v) ∨ (∃ r v, i = .cmdRamWr r v)) →
    exec i s = .next t → t.rdata = s.rdata ∧ t.device = s.device ∧ t.shift = s.shift ∧ t.burst = s.burst

/-- R37, R43: no step but a reset clears SCLK_OE or IMG_VALID. -/
def Obligations.ClockEnableAndImageValidStay : Prop :=
  ∀ s t : State, step s = .next t → resetNow s = false →
    (s.lines.sclkOe = true → t.lines.sclkOe = true) ∧ (s.imgValid = true → t.imgValid = true)

/-- R20, R234: no step but a reset takes an event from the trace: it only grows; a reset puts it away, whole, with the
earlier ones (log 3). -/
def Obligations.TraceOnlyGrows : Prop :=
  ∀ s t : State, step s = .next t →
    (resetNow s = false → t.past = s.past ∧ ∃ u, t.trace = s.trace ++ u) ∧
    (resetNow s = true → t.past = s.past ++ [s.trace] ∧ t.trace = [])

/-- R56, R57: the line invariants, kept by every step from every state that meets them. -/
def Obligations.LineInvariantsKept : Prop :=
  ∀ s t : State, LinesInv s → step s = .next t → LinesInv t

/-- R20: that the lines are what the trace since reset leaves is kept by every step. -/
def Obligations.TraceShowsLinesKept : Prop :=
  ∀ s t : State, TraceShowsLines s → step s = .next t → TraceShowsLines t

/-- R58, R137, R245: the wire discipline is kept by every step: data driven and changed only in phase WRITE with the clock
low, sampled only when released with the clock low, released only with the clock high, and the select line active again
only after a T_CE_OFF. -/
def Obligations.WireDisciplineKept : Prop :=
  ∀ s t : State, WireInv s → step s = .next t → WireInv t

/-- The invariants hold at reset. -/
def Obligations.ResetMeetsInvariants : Prop :=
  LinesInv State.reset ∧ TraceShowsLines State.reset ∧ WireInv State.reset

/-! ## Time Decoder (42_time_decoder.md) -/

/-- R185, R186, R187, R194: the decoded values, as naturals, and their ranges: no 8-bit output ever wraps. -/
def Obligations.DecodedTimeValues : Prop :=
  ∀ img : Bytes8,
    (sec imageLayout img).toNat = 10 * (img.b0.toNat / 16 % 8) + img.b0.toNat % 16 ∧
    (minute imageLayout img).toNat = 10 * (img.b1.toNat / 16 % 8) + img.b1.toNat % 16 ∧
    (hour imageLayout img).toNat = 10 * (img.b2.toNat / 16 % 4) + img.b2.toNat % 16 ∧
    (sec imageLayout img).toNat ≤ 85 ∧ (minute imageLayout img).toNat ≤ 85 ∧ (hour imageLayout img).toNat ≤ 45

/-- R188 to R191: DFLAGS, bit by bit. -/
def Obligations.DecoderFlags : Prop :=
  ∀ img : Bytes8,
    bitOf (dflags imageLayout img) 0 = bitOf img.b0 7 ∧ bitOf (dflags imageLayout img) 1 = bitOf img.b2 7 ∧
    bitOf (dflags imageLayout img) 2 = bitOf img.b2 5 ∧ bitOf (dflags imageLayout img) 3 = bitOf img.b7 7 ∧
    (bitOf (dflags imageLayout img) 4 = true ↔ ∀ k, byteAt img k = 0x00) ∧
    (bitOf (dflags imageLayout img) 5 = true ↔
      9 < img.b0.toNat % 16 ∨ 9 < img.b1.toNat % 16 ∨ 9 < img.b2.toNat % 16) ∧
    (bitOf (dflags imageLayout img) 6 = true ↔
      59 < (sec imageLayout img).toNat ∨ 59 < (minute imageLayout img).toNat ∨ 23 < (hour imageLayout img).toNat) ∧
    bitOf (dflags imageLayout img) 7 = false

/-- R195: fields that are the BCD of a value in range decode in range. -/
def Obligations.ValidFieldsDecodeInRange : Prop :=
  ∀ img : Bytes8,
    (img.b0.toNat / 16 % 8 ≤ 5 → img.b0.toNat % 16 ≤ 9 → (sec imageLayout img).toNat ≤ 59) ∧
    (img.b1.toNat / 16 % 8 ≤ 5 → img.b1.toNat % 16 ≤ 9 → (minute imageLayout img).toNat ≤ 59) ∧
    ((img.b2.toNat / 16 % 4 ≤ 1 ∧ img.b2.toNat % 16 ≤ 9) ∨ (img.b2.toNat / 16 % 4 = 2 ∧ img.b2.toNat % 16 ≤ 3) →
      (hour imageLayout img).toNat ≤ 23) ∧
    (img.b2.toNat / 16 % 4 = 2 → 4 ≤ img.b2.toNat % 16 → img.b2.toNat % 16 ≤ 9 →
      24 ≤ (hour imageLayout img).toNat ∧ (hour imageLayout img).toNat ≤ 29 ∧ softRange imageLayout img = true)

/-- R196: encoding a value as BCD and decoding it gives it back, whatever the other bytes and the clock-halt flag are. -/
def Obligations.BcdRoundTrip : Prop :=
  ∀ (img : Bytes8) (v : Nat),
    (v < 60 → ∀ x : Nat, x ≤ 1 → img.b0.toNat = v / 10 * 16 + v % 10 + x * 128 →
      (sec imageLayout img).toNat = v) ∧
    (v < 60 → img.b1.toNat = v / 10 * 16 + v % 10 → (minute imageLayout img).toNat = v) ∧
    (v < 24 → img.b2.toNat = v / 10 * 16 + v % 10 → (hour imageLayout img).toNat = v)

/-- R193: in 12-hour mode HOUR is still the 24-hour reading: setting the PM bit adds 20, and the mode bit changes nothing. -/
def Obligations.TwelveHourModeIsNotDecoded : Prop :=
  ∀ img : Bytes8,
    (bitOf img.b2 5 = false →
      (hour imageLayout { img with b2 := setBit img.b2 5 true }).toNat = (hour imageLayout img).toNat + 20) ∧
    (∀ m : Bool, hour imageLayout { img with b2 := setBit img.b2 7 m } = hour imageLayout img) ∧
    (img.b2 = 0xA1 → hour imageLayout img = 21#8 ∧ bitOf (dflags imageLayout img) 1 = true) ∧
    (img.b2 = 0x92 → hour imageLayout img = 12#8 ∧ bitOf (dflags imageLayout img) 1 = true)

/-! ## What the outside sees (10_state.md) -/

/-- R45, R47: STATUS and LINES, bit by bit; bit 5 of LINES is whatever the data line is. -/
def Obligations.StatusAndLinesBits : Prop :=
  (∀ s : State,
    bitOf (status s) 0 = s.busy ∧ bitOf (status s) 1 = s.imgValid ∧ bitOf (status s) 2 = s.lines.ce ∧
    bitOf (status s) 3 = false ∧ bitOf (status s) 4 = s.errIll ∧ bitOf (status s) 5 = s.errNosess ∧
    bitOf (status s) 6 = s.errDir ∧ bitOf (status s) 7 = false) ∧
  (∀ (l : Lines) (d : Bool),
    bitOf (linesByte d l) 0 = l.ce ∧ bitOf (linesByte d l) 1 = l.sclk ∧ bitOf (linesByte d l) 2 = l.sclkOe ∧
    (bitOf (linesByte d l) 3 = true ↔ l.ioDir = .output) ∧ bitOf (linesByte d l) 4 = l.ioOut ∧
    bitOf (linesByte d l) 5 = d ∧ bitOf (linesByte d l) 6 = false ∧ bitOf (linesByte d l) 7 = false)

/-- R51: the read port, index by index, between requests; and the registers that do not depend on a running request. -/
def Obligations.ReadPortMap : Prop :=
  ∀ (s : State) (draw : Byte),
    readPort 0x0 draw s = status s ∧
    (s.busy = false → readPort 0x1 draw s = linesByte (bitOf draw 5) s.lines) ∧
    (s.busy = false → readPort 0x2 draw s = s.rdata) ∧
    readPort 0x3 draw s = sec imageLayout s.img ∧ readPort 0x4 draw s = minute imageLayout s.img ∧
    readPort 0x5 draw s = hour imageLayout s.img ∧ readPort 0x6 draw s = dflags imageLayout s.img ∧
    readPort 0x7 draw s = 0x00 ∧
    (∀ k : Fin 8, readPort (BitVec.ofNat 4 (8 + k.val)) draw s = byteAt s.img k)

/-- R30, R12, R32, R33: the pad signals at either select polarity, and the host-side outputs. That `rspData` is RDATA in every
state, without a response too, is the model's choice (log 7). -/
def Obligations.OutputSignals : Prop :=
  (∀ (s : State) (high : Bool),
    (padOutputs high s.lines).ceO = (if high then s.lines.ce else !s.lines.ce) ∧
    (padOutputs high s.lines).sclkO = s.lines.sclk ∧ (padOutputs high s.lines).sclkOe = s.lines.sclkOe ∧
    (padOutputs high s.lines).ioO = s.lines.ioOut ∧
    ((padOutputs high s.lines).ioOe = true ↔ s.lines.ioDir = .output)) ∧
  (∀ s : State,
    (hostOutputs s).reqReady = !s.busy ∧ (hostOutputs s).rspValid = s.rspValid ∧ (hostOutputs s).rspErr = s.rspErr ∧
    (hostOutputs s).rspData = s.rdata ∧ (hostOutputs s).secO = sec imageLayout s.img ∧
    (hostOutputs s).minO = minute imageLayout s.img ∧ (hostOutputs s).hourO = hour imageLayout s.img ∧
    (hostOutputs s).dflagsO = dflags imageLayout s.img)

/-! ## Timing (70_reset_and_hazards.md) -/

/-- R250: the least duration of each request, in the five hold parameters, whatever their values; R11: each is positive and
at least the device's minimum. -/
def Obligations.MinimumDurations : Prop :=
  (∀ p, 0 < holdTime p ∧ Config.devMinHold p ≤ holdTime p) ∧
  (∀ (ceWas : Bool) (c v : Byte) (b : Bytes8),
    minTime (beginTrace ceWas) = (if ceWas then holdTime .ceOff + holdTime .ceSu else holdTime .ceSu) ∧
    minTime endTrace = holdTime .ceOff ∧
    minTime (wrbyteTrace v false) = 8 * (holdTime .dsu + holdTime .ckh + holdTime .ckl) ∧
    minTime (wrbyteTrace v true) = 8 * (holdTime .dsu + holdTime .ckh) + 7 * holdTime .ckl ∧
    minTime (rdbyteTrace v) = 8 * (holdTime .ckh + holdTime .ckl) ∧
    minTime (readTrace false c v) = holdTime .ceSu +
      (8 * holdTime .dsu + 8 * holdTime .ckh + 7 * holdTime .ckl) + 8 * (holdTime .ckh + holdTime .ckl) +
      holdTime .ceOff ∧
    minTime (writeTrace false c v) = holdTime .ceSu + 16 * (holdTime .dsu + holdTime .ckh + holdTime .ckl) +
      holdTime .ceOff ∧
    minTime (burstReadTrace false c b) = holdTime .ceSu +
      (8 * holdTime .dsu + 8 * holdTime .ckh + 7 * holdTime .ckl) + 64 * (holdTime .ckh + holdTime .ckl) +
      holdTime .ceOff ∧
    minTime (burstWriteTrace false c b) = holdTime .ceSu +
      72 * (holdTime .dsu + holdTime .ckh + holdTime .ckl) + holdTime .ceOff)
end

