-- ==== Sys2Proof/Laws/Decoder.lean ====
section
/-! SUPPORT. Fields of the image, bytes put together from bits, and what a decoded value can be. -/

namespace Sys2Proof.Machine

theorem fieldValue_eq (f : BitField) (img : Bytes8) :
    fieldValue f img = (byteAt img f.byte).toNat / 2 ^ f.lo % 2 ^ f.width := by
  rw [fieldValue, Nat.shiftRight_eq_div_pow]

theorem fieldValue_lt (f : BitField) (img : Bytes8) : fieldValue f img < 2 ^ f.width :=
  Nat.mod_lt _ (Nat.two_pow_pos _)

/-- Each bit of a byte put together from bits. -/
theorem bitOf_byteOfBits (b0 b1 b2 b3 b4 b5 b6 b7 : Bool) :
    bitOf (byteOfBits b0 b1 b2 b3 b4 b5 b6 b7) 0 = b0 ∧ bitOf (byteOfBits b0 b1 b2 b3 b4 b5 b6 b7) 1 = b1 ∧
    bitOf (byteOfBits b0 b1 b2 b3 b4 b5 b6 b7) 2 = b2 ∧ bitOf (byteOfBits b0 b1 b2 b3 b4 b5 b6 b7) 3 = b3 ∧
    bitOf (byteOfBits b0 b1 b2 b3 b4 b5 b6 b7) 4 = b4 ∧ bitOf (byteOfBits b0 b1 b2 b3 b4 b5 b6 b7) 5 = b5 ∧
    bitOf (byteOfBits b0 b1 b2 b3 b4 b5 b6 b7) 6 = b6 ∧ bitOf (byteOfBits b0 b1 b2 b3 b4 b5 b6 b7) 7 = b7 := by
  revert b0 b1 b2 b3 b4 b5 b6 b7
  decide

/-- A byte's bit as a quotient and remainder. -/
theorem bitOf_toNat (v : Byte) (i : Fin 8) : bitOf v i = (v.toNat / 2 ^ i.val % 2 == 1) := by
  rw [bitOf, BitVec.getLsbD, Nat.testBit_eq_decide_div_mod_eq]
  generalize v.toNat / 2 ^ i.val % 2 = n
  by_cases h : n = 1 <;> simp [h]

end Sys2Proof.Machine
end

