-- ==== Sys2Proof/Laws/State.lean ====
section
/-! SUPPORT. The small lemmas of the state updates: one per field per update, true by rfl, so that no later proof unfolds a
record update. -/

namespace Sys2Proof.Machine

/-! ## emit -/

@[simp] theorem emit_lines (e : PadEvent) (s : State) : (emit e s).lines = applyEvent e s.lines := rfl
@[simp] theorem emit_rdata (e : PadEvent) (s : State) : (emit e s).rdata = s.rdata := rfl
@[simp] theorem emit_img (e : PadEvent) (s : State) : (emit e s).img = s.img := rfl
@[simp] theorem emit_imgValid (e : PadEvent) (s : State) : (emit e s).imgValid = s.imgValid := rfl
@[simp] theorem emit_busy (e : PadEvent) (s : State) : (emit e s).busy = s.busy := rfl
@[simp] theorem emit_errIll (e : PadEvent) (s : State) : (emit e s).errIll = s.errIll := rfl
@[simp] theorem emit_errNosess (e : PadEvent) (s : State) : (emit e s).errNosess = s.errNosess := rfl
@[simp] theorem emit_errDir (e : PadEvent) (s : State) : (emit e s).errDir = s.errDir := rfl
@[simp] theorem emit_rspValid (e : PadEvent) (s : State) : (emit e s).rspValid = s.rspValid := rfl
@[simp] theorem emit_rspErr (e : PadEvent) (s : State) : (emit e s).rspErr = s.rspErr := rfl
@[simp] theorem emit_seq (e : PadEvent) (s : State) : (emit e s).seq = s.seq := rfl
@[simp] theorem emit_shift (e : PadEvent) (s : State) : (emit e s).shift = s.shift := rfl
@[simp] theorem emit_burst (e : PadEvent) (s : State) : (emit e s).burst = s.burst := rfl
@[simp] theorem emit_trace (e : PadEvent) (s : State) : (emit e s).trace = s.trace ++ [e] := rfl
@[simp] theorem emit_past (e : PadEvent) (s : State) : (emit e s).past = s.past := rfl
@[simp] theorem emit_device (e : PadEvent) (s : State) : (emit e s).device = s.device := rfl
@[simp] theorem emit_host (e : PadEvent) (s : State) : (emit e s).host = s.host := rfl

/-! ## sampleInto -/

@[simp] theorem sampleInto_lines (i : Fin 8) (s : State) : (sampleInto i s).lines = s.lines := rfl
@[simp] theorem sampleInto_rdata (i : Fin 8) (s : State) : (sampleInto i s).rdata = s.rdata := rfl
@[simp] theorem sampleInto_img (i : Fin 8) (s : State) : (sampleInto i s).img = s.img := rfl
@[simp] theorem sampleInto_imgValid (i : Fin 8) (s : State) : (sampleInto i s).imgValid = s.imgValid := rfl
@[simp] theorem sampleInto_busy (i : Fin 8) (s : State) : (sampleInto i s).busy = s.busy := rfl
@[simp] theorem sampleInto_errIll (i : Fin 8) (s : State) : (sampleInto i s).errIll = s.errIll := rfl
@[simp] theorem sampleInto_errNosess (i : Fin 8) (s : State) : (sampleInto i s).errNosess = s.errNosess := rfl
@[simp] theorem sampleInto_errDir (i : Fin 8) (s : State) : (sampleInto i s).errDir = s.errDir := rfl
@[simp] theorem sampleInto_rspValid (i : Fin 8) (s : State) : (sampleInto i s).rspValid = s.rspValid := rfl
@[simp] theorem sampleInto_rspErr (i : Fin 8) (s : State) : (sampleInto i s).rspErr = s.rspErr := rfl
@[simp] theorem sampleInto_seq (i : Fin 8) (s : State) : (sampleInto i s).seq = s.seq := rfl
@[simp] theorem sampleInto_shift (i : Fin 8) (s : State) : (sampleInto i s).shift = setBit s.shift i (deviceAnswer s) := rfl
@[simp] theorem sampleInto_burst (i : Fin 8) (s : State) : (sampleInto i s).burst = s.burst := rfl
@[simp] theorem sampleInto_trace (i : Fin 8) (s : State) : (sampleInto i s).trace = s.trace ++ [.sample (deviceAnswer s)] := rfl
@[simp] theorem sampleInto_past (i : Fin 8) (s : State) : (sampleInto i s).past = s.past := rfl
@[simp] theorem sampleInto_device (i : Fin 8) (s : State) : (sampleInto i s).device = s.device.tail := rfl
@[simp] theorem sampleInto_host (i : Fin 8) (s : State) : (sampleInto i s).host = s.host := rfl

/-! ## accept -/

@[simp] theorem accept_lines (ops : List SeqOp) (s : State) : (accept ops s).lines = s.lines := rfl
@[simp] theorem accept_rdata (ops : List SeqOp) (s : State) : (accept ops s).rdata = s.rdata := rfl
@[simp] theorem accept_img (ops : List SeqOp) (s : State) : (accept ops s).img = s.img := rfl
@[simp] theorem accept_imgValid (ops : List SeqOp) (s : State) : (accept ops s).imgValid = s.imgValid := rfl
@[simp] theorem accept_busy (ops : List SeqOp) (s : State) : (accept ops s).busy = true := rfl
@[simp] theorem accept_errIll (ops : List SeqOp) (s : State) : (accept ops s).errIll = s.errIll := rfl
@[simp] theorem accept_errNosess (ops : List SeqOp) (s : State) : (accept ops s).errNosess = s.errNosess := rfl
@[simp] theorem accept_errDir (ops : List SeqOp) (s : State) : (accept ops s).errDir = s.errDir := rfl
@[simp] theorem accept_rspValid (ops : List SeqOp) (s : State) : (accept ops s).rspValid = false := rfl
@[simp] theorem accept_rspErr (ops : List SeqOp) (s : State) : (accept ops s).rspErr = s.rspErr := rfl
@[simp] theorem accept_seq (ops : List SeqOp) (s : State) : (accept ops s).seq = ops := rfl
@[simp] theorem accept_shift (ops : List SeqOp) (s : State) : (accept ops s).shift = s.shift := rfl
@[simp] theorem accept_burst (ops : List SeqOp) (s : State) : (accept ops s).burst = s.burst := rfl
@[simp] theorem accept_trace (ops : List SeqOp) (s : State) : (accept ops s).trace = s.trace := rfl
@[simp] theorem accept_past (ops : List SeqOp) (s : State) : (accept ops s).past = s.past := rfl
@[simp] theorem accept_device (ops : List SeqOp) (s : State) : (accept ops s).device = s.device := rfl
@[simp] theorem accept_host (ops : List SeqOp) (s : State) : (accept ops s).host = s.host := rfl

/-! ## respond -/

@[simp] theorem respond_lines (s : State) : (respond s).lines = s.lines := rfl
@[simp] theorem respond_rdata (s : State) : (respond s).rdata = s.rdata := rfl
@[simp] theorem respond_img (s : State) : (respond s).img = s.img := rfl
@[simp] theorem respond_imgValid (s : State) : (respond s).imgValid = s.imgValid := rfl
@[simp] theorem respond_busy (s : State) : (respond s).busy = false := rfl
@[simp] theorem respond_errIll (s : State) : (respond s).errIll = s.errIll := rfl
@[simp] theorem respond_errNosess (s : State) : (respond s).errNosess = s.errNosess := rfl
@[simp] theorem respond_errDir (s : State) : (respond s).errDir = s.errDir := rfl
@[simp] theorem respond_rspValid (s : State) : (respond s).rspValid = true := rfl
@[simp] theorem respond_rspErr (s : State) : (respond s).rspErr = false := rfl
@[simp] theorem respond_seq (s : State) : (respond s).seq = s.seq := rfl
@[simp] theorem respond_shift (s : State) : (respond s).shift = s.shift := rfl
@[simp] theorem respond_burst (s : State) : (respond s).burst = s.burst := rfl
@[simp] theorem respond_trace (s : State) : (respond s).trace = s.trace := rfl
@[simp] theorem respond_past (s : State) : (respond s).past = s.past := rfl
@[simp] theorem respond_device (s : State) : (respond s).device = s.device := rfl
@[simp] theorem respond_host (s : State) : (respond s).host = s.host := rfl

/-! ## raiseFault -/

@[simp] theorem raiseFault_lines (k : FaultKind) (s : State) : (raiseFault k s).lines = s.lines := rfl
@[simp] theorem raiseFault_rdata (k : FaultKind) (s : State) : (raiseFault k s).rdata = s.rdata := rfl
@[simp] theorem raiseFault_img (k : FaultKind) (s : State) : (raiseFault k s).img = s.img := rfl
@[simp] theorem raiseFault_imgValid (k : FaultKind) (s : State) : (raiseFault k s).imgValid = s.imgValid := rfl
@[simp] theorem raiseFault_busy (k : FaultKind) (s : State) : (raiseFault k s).busy = false := rfl
@[simp] theorem raiseFault_errIll (k : FaultKind) (s : State) : (raiseFault k s).errIll = (s.errIll || k == .ill) := rfl
@[simp] theorem raiseFault_errNosess (k : FaultKind) (s : State) : (raiseFault k s).errNosess = (s.errNosess || k == .nosess) := rfl
@[simp] theorem raiseFault_errDir (k : FaultKind) (s : State) : (raiseFault k s).errDir = (s.errDir || k == .dir) := rfl
@[simp] theorem raiseFault_rspValid (k : FaultKind) (s : State) : (raiseFault k s).rspValid = true := rfl
@[simp] theorem raiseFault_rspErr (k : FaultKind) (s : State) : (raiseFault k s).rspErr = true := rfl
@[simp] theorem raiseFault_seq (k : FaultKind) (s : State) : (raiseFault k s).seq = s.seq := rfl
@[simp] theorem raiseFault_shift (k : FaultKind) (s : State) : (raiseFault k s).shift = s.shift := rfl
@[simp] theorem raiseFault_burst (k : FaultKind) (s : State) : (raiseFault k s).burst = s.burst := rfl
@[simp] theorem raiseFault_trace (k : FaultKind) (s : State) : (raiseFault k s).trace = s.trace := rfl
@[simp] theorem raiseFault_past (k : FaultKind) (s : State) : (raiseFault k s).past = s.past := rfl
@[simp] theorem raiseFault_device (k : FaultKind) (s : State) : (raiseFault k s).device = s.device := rfl
@[simp] theorem raiseFault_host (k : FaultKind) (s : State) : (raiseFault k s).host = s.host := rfl

/-! ## idleCycle -/

@[simp] theorem idleCycle_lines (s : State) : (idleCycle s).lines = s.lines := rfl
@[simp] theorem idleCycle_rdata (s : State) : (idleCycle s).rdata = s.rdata := rfl
@[simp] theorem idleCycle_img (s : State) : (idleCycle s).img = s.img := rfl
@[simp] theorem idleCycle_imgValid (s : State) : (idleCycle s).imgValid = s.imgValid := rfl
@[simp] theorem idleCycle_busy (s : State) : (idleCycle s).busy = s.busy := rfl
@[simp] theorem idleCycle_errIll (s : State) : (idleCycle s).errIll = s.errIll := rfl
@[simp] theorem idleCycle_errNosess (s : State) : (idleCycle s).errNosess = s.errNosess := rfl
@[simp] theorem idleCycle_errDir (s : State) : (idleCycle s).errDir = s.errDir := rfl
@[simp] theorem idleCycle_rspValid (s : State) : (idleCycle s).rspValid = false := rfl
@[simp] theorem idleCycle_rspErr (s : State) : (idleCycle s).rspErr = s.rspErr := rfl
@[simp] theorem idleCycle_seq (s : State) : (idleCycle s).seq = s.seq := rfl
@[simp] theorem idleCycle_shift (s : State) : (idleCycle s).shift = s.shift := rfl
@[simp] theorem idleCycle_burst (s : State) : (idleCycle s).burst = s.burst := rfl
@[simp] theorem idleCycle_trace (s : State) : (idleCycle s).trace = s.trace := rfl
@[simp] theorem idleCycle_past (s : State) : (idleCycle s).past = s.past := rfl
@[simp] theorem idleCycle_device (s : State) : (idleCycle s).device = s.device := rfl
@[simp] theorem idleCycle_host (s : State) : (idleCycle s).host = s.host := rfl

/-! ## applyReset -/

@[simp] theorem applyReset_lines (s : State) : (applyReset s).lines = State.reset.lines := rfl
@[simp] theorem applyReset_rdata (s : State) : (applyReset s).rdata = State.reset.rdata := rfl
@[simp] theorem applyReset_img (s : State) : (applyReset s).img = State.reset.img := rfl
@[simp] theorem applyReset_imgValid (s : State) : (applyReset s).imgValid = State.reset.imgValid := rfl
@[simp] theorem applyReset_busy (s : State) : (applyReset s).busy = State.reset.busy := rfl
@[simp] theorem applyReset_errIll (s : State) : (applyReset s).errIll = State.reset.errIll := rfl
@[simp] theorem applyReset_errNosess (s : State) : (applyReset s).errNosess = State.reset.errNosess := rfl
@[simp] theorem applyReset_errDir (s : State) : (applyReset s).errDir = State.reset.errDir := rfl
@[simp] theorem applyReset_rspValid (s : State) : (applyReset s).rspValid = State.reset.rspValid := rfl
@[simp] theorem applyReset_rspErr (s : State) : (applyReset s).rspErr = State.reset.rspErr := rfl
@[simp] theorem applyReset_seq (s : State) : (applyReset s).seq = State.reset.seq := rfl
@[simp] theorem applyReset_shift (s : State) : (applyReset s).shift = State.reset.shift := rfl
@[simp] theorem applyReset_burst (s : State) : (applyReset s).burst = State.reset.burst := rfl
@[simp] theorem applyReset_trace (s : State) : (applyReset s).trace = State.reset.trace := rfl
@[simp] theorem applyReset_past (s : State) : (applyReset s).past = s.past ++ [s.trace] := rfl
@[simp] theorem applyReset_device (s : State) : (applyReset s).device = s.device := rfl
@[simp] theorem applyReset_host (s : State) : (applyReset s).host = s.host := rfl

/-! ## presentNext -/

@[simp] theorem presentNext_lines (p : Presented) (s : State) : (presentNext p s).lines = s.lines := rfl
@[simp] theorem presentNext_rdata (p : Presented) (s : State) : (presentNext p s).rdata = s.rdata := rfl
@[simp] theorem presentNext_img (p : Presented) (s : State) : (presentNext p s).img = s.img := rfl
@[simp] theorem presentNext_imgValid (p : Presented) (s : State) : (presentNext p s).imgValid = s.imgValid := rfl
@[simp] theorem presentNext_busy (p : Presented) (s : State) : (presentNext p s).busy = false := rfl
@[simp] theorem presentNext_errIll (p : Presented) (s : State) : (presentNext p s).errIll = s.errIll := rfl
@[simp] theorem presentNext_errNosess (p : Presented) (s : State) : (presentNext p s).errNosess = s.errNosess := rfl
@[simp] theorem presentNext_errDir (p : Presented) (s : State) : (presentNext p s).errDir = s.errDir := rfl
@[simp] theorem presentNext_rspValid (p : Presented) (s : State) : (presentNext p s).rspValid = s.rspValid := rfl
@[simp] theorem presentNext_rspErr (p : Presented) (s : State) : (presentNext p s).rspErr = s.rspErr := rfl
@[simp] theorem presentNext_seq (p : Presented) (s : State) : (presentNext p s).seq = [] := rfl
@[simp] theorem presentNext_shift (p : Presented) (s : State) : (presentNext p s).shift = s.shift := rfl
@[simp] theorem presentNext_burst (p : Presented) (s : State) : (presentNext p s).burst = s.burst := rfl
@[simp] theorem presentNext_trace (p : Presented) (s : State) : (presentNext p s).trace = s.trace := rfl
@[simp] theorem presentNext_past (p : Presented) (s : State) : (presentNext p s).past = s.past := rfl
@[simp] theorem presentNext_device (p : Presented) (s : State) : (presentNext p s).device = s.device := rfl
@[simp] theorem presentNext_host (p : Presented) (s : State) : (presentNext p s).host = .present p :: s.host := rfl

/-! ## The operations of the sequencer -/

@[simp] theorem runOp_setCE (b : Bool) (s : State) : runOp (.setCE b) s = emit (.ce b) s := rfl
@[simp] theorem runOp_enableSCLK (s : State) : runOp .enableSCLK s = emit .sclkOe s := rfl
@[simp] theorem runOp_setSCLK (b : Bool) (s : State) : runOp (.setSCLK b) s = emit (.sclk b) s := rfl
@[simp] theorem runOp_setIODir (d : IoDir) (s : State) : runOp (.setIODir d) s = emit (.ioDir d) s := rfl
@[simp] theorem runOp_driveIO (b : Bool) (s : State) : runOp (.driveIO b) s = emit (.io b) s := rfl
@[simp] theorem runOp_hold (p : HoldParam) (s : State) : runOp (.hold p) s = emit (.hold p) s := rfl
@[simp] theorem runOp_clearShift (s : State) : runOp .clearShift s = { s with shift := 0x00 } := rfl
@[simp] theorem runOp_sampleBit (i : Fin 8) (s : State) : runOp (.sampleBit i) s = sampleInto i s := rfl
@[simp] theorem runOp_latchRdata (s : State) : runOp .latchRdata s = { s with rdata := s.shift } := rfl
@[simp] theorem runOp_bufferByte (k : Fin 8) (s : State) : runOp (.bufferByte k) s = { s with burst := setByteAt s.burst k s.rdata } := rfl
@[simp] theorem runOp_commitImage (s : State) : runOp .commitImage s = { s with img := s.burst, imgValid := true } := rfl

/-! ## The effect of each pad event on the lines -/

@[simp] theorem applyEvent_ce (b : Bool) (l : Lines) : applyEvent (.ce b) l = { l with ce := b } := rfl
@[simp] theorem applyEvent_sclkOe (l : Lines) : applyEvent .sclkOe l = { l with sclkOe := true } := rfl
@[simp] theorem applyEvent_sclk (b : Bool) (l : Lines) : applyEvent (.sclk b) l = { l with sclk := b } := rfl
@[simp] theorem applyEvent_ioDir (d : IoDir) (l : Lines) : applyEvent (.ioDir d) l = { l with ioDir := d } := rfl
@[simp] theorem applyEvent_io (b : Bool) (l : Lines) : applyEvent (.io b) l = { l with ioOut := b } := rfl
@[simp] theorem applyEvent_hold (p : HoldParam) (l : Lines) : applyEvent (.hold p) l = l := rfl
@[simp] theorem applyEvent_sample (v : Bool) (l : Lines) : applyEvent (.sample v) l = l := rfl

end Sys2Proof.Machine
end

