-- ==== Sys2Proof/Laws/Ops.lean ====
section
/-! SUPPORT. The laws of the shared operations: running a list of operations, completing a request, what an outcome can be. -/

namespace Sys2Proof.Machine

/-! ## Running operations -/

@[simp] theorem runOps_nil (s : State) : runOps [] s = s := rfl

@[simp] theorem runOps_cons (o : SeqOp) (ops : List SeqOp) (s : State) :
    runOps (o :: ops) s = runOps ops (runOp o s) := rfl

@[simp] theorem runOps_append (a b : List SeqOp) (s : State) :
    runOps (a ++ b) s = runOps b (runOps a s) := by
  simp [runOps, List.foldl_append]

/-- No operation reads or writes the sequencer's own list. -/
theorem runOp_withSeq (o : SeqOp) (s : State) (q : List SeqOp) :
    runOp o { s with seq := q } = { runOp o s with seq := q } := by
  cases o <;> rfl

theorem runOps_withSeq (ops : List SeqOp) (s : State) (q : List SeqOp) :
    runOps ops { s with seq := q } = { runOps ops s with seq := q } := by
  induction ops generalizing s with
  | nil => rfl
  | cons o ops ih => rw [runOps_cons, runOp_withSeq, ih, runOps_cons]

/-- No operation reads or writes the host's list. -/
theorem runOp_withHost (o : SeqOp) (s : State) (q : List HostAction) :
    runOp o { s with host := q } = { runOp o s with host := q } := by
  cases o <;> rfl

theorem runOps_withHost (ops : List SeqOp) (s : State) (q : List HostAction) :
    runOps ops { s with host := q } = { runOps ops s with host := q } := by
  induction ops generalizing s with
  | nil => rfl
  | cons o ops ih => rw [runOps_cons, runOp_withHost, ih, runOps_cons]

/-- What an operation never touches: the response, the error bits, BUSY, the host and the past. -/
theorem runOp_frame (o : SeqOp) (s : State) :
    (runOp o s).busy = s.busy ∧ (runOp o s).errIll = s.errIll ∧ (runOp o s).errNosess = s.errNosess ∧
    (runOp o s).errDir = s.errDir ∧ (runOp o s).rspValid = s.rspValid ∧ (runOp o s).rspErr = s.rspErr ∧
    (runOp o s).seq = s.seq ∧ (runOp o s).past = s.past ∧ (runOp o s).host = s.host := by
  cases o <;> exact ⟨rfl, rfl, rfl, rfl, rfl, rfl, rfl, rfl, rfl⟩

theorem runOps_frame (ops : List SeqOp) (s : State) :
    (runOps ops s).busy = s.busy ∧ (runOps ops s).errIll = s.errIll ∧ (runOps ops s).errNosess = s.errNosess ∧
    (runOps ops s).errDir = s.errDir ∧ (runOps ops s).rspValid = s.rspValid ∧ (runOps ops s).rspErr = s.rspErr ∧
    (runOps ops s).seq = s.seq ∧ (runOps ops s).past = s.past ∧ (runOps ops s).host = s.host := by
  induction ops generalizing s with
  | nil => exact ⟨rfl, rfl, rfl, rfl, rfl, rfl, rfl, rfl, rfl⟩
  | cons o ops ih =>
    have h := runOp_frame o s
    have h' := ih (runOp o s)
    rw [runOps_cons]
    exact ⟨h'.1.trans h.1, h'.2.1.trans h.2.1, h'.2.2.1.trans h.2.2.1, h'.2.2.2.1.trans h.2.2.2.1,
      h'.2.2.2.2.1.trans h.2.2.2.2.1, h'.2.2.2.2.2.1.trans h.2.2.2.2.2.1,
      h'.2.2.2.2.2.2.1.trans h.2.2.2.2.2.2.1, h'.2.2.2.2.2.2.2.1.trans h.2.2.2.2.2.2.2.1,
      h'.2.2.2.2.2.2.2.2.trans h.2.2.2.2.2.2.2.2⟩

/-- An operation appends to the trace, and the lines follow what it appends. -/
theorem runOp_trace (o : SeqOp) (s : State) :
    ∃ u, (runOp o s).trace = s.trace ++ u ∧ (runOp o s).lines = replay u s.lines := by
  cases o with
  | clearShift => exact ⟨[], (List.append_nil _).symm, rfl⟩
  | latchRdata => exact ⟨[], (List.append_nil _).symm, rfl⟩
  | bufferByte k => exact ⟨[], (List.append_nil _).symm, rfl⟩
  | commitImage => exact ⟨[], (List.append_nil _).symm, rfl⟩
  | _ => exact ⟨[_], rfl, rfl⟩

theorem replay_append (t u : PadTrace) (l : Lines) : replay (t ++ u) l = replay u (replay t l) := by
  simp [replay, List.foldl_append]

theorem runOps_trace (ops : List SeqOp) (s : State) :
    ∃ u, (runOps ops s).trace = s.trace ++ u ∧ (runOps ops s).lines = replay u s.lines := by
  induction ops generalizing s with
  | nil => exact ⟨[], (List.append_nil _).symm, rfl⟩
  | cons o ops ih =>
    obtain ⟨u, hu, hl⟩ := runOp_trace o s
    obtain ⟨v, hv, hm⟩ := ih (runOp o s)
    exact ⟨u ++ v, by rw [runOps_cons, hv, hu, List.append_assoc], by rw [runOps_cons, hm, hl, replay_append]⟩

/-- An operation appends at most one event. -/
theorem runOp_trace_one (o : SeqOp) (s : State) :
    (runOp o s).trace = s.trace ∨ ∃ e, (runOp o s).trace = s.trace ++ [e] := by
  cases o with
  | clearShift => exact .inl rfl
  | latchRdata => exact .inl rfl
  | bufferByte k => exact .inl rfl
  | commitImage => exact .inl rfl
  | _ => exact .inr ⟨_, rfl⟩

/-- Every cut of the events a list of operations appends is reached after some of them. -/
theorem runOps_trace_cut (ops : List SeqOp) (s : State) (u v : PadTrace)
    (h : (runOps ops s).trace = s.trace ++ (u ++ v)) : ∃ n, (runOps (ops.take n) s).trace = s.trace ++ u := by
  induction ops generalizing s u with
  | nil =>
    have hu : u ++ v = [] := List.append_cancel_left (h.symm.trans (List.append_nil _).symm)
    exact ⟨0, by rw [(List.append_eq_nil_iff.1 hu).1, List.append_nil]; rfl⟩
  | cons o ops ih =>
    rw [runOps_cons] at h
    rcases runOp_trace_one o s with ho | ⟨e, ho⟩
    · obtain ⟨n, hn⟩ := ih (runOp o s) u (by rw [h, ho])
      exact ⟨n + 1, by rw [List.take_succ_cons, runOps_cons, hn, ho]⟩
    · cases u with
      | nil => exact ⟨0, (List.append_nil _).symm⟩
      | cons d u =>
        obtain ⟨w, hw, -⟩ := runOps_trace ops (runOp o s)
        rw [hw, ho, List.append_assoc] at h
        have hd : e = d := (List.cons.inj (List.append_cancel_left h)).1
        obtain ⟨n, hn⟩ := ih (runOp o s) u (by
          rw [hw, ho, List.append_assoc, List.append_assoc, h, hd]
          rfl)
        exact ⟨n + 1, by rw [List.take_succ_cons, runOps_cons, hn, ho, hd, List.append_assoc]; rfl⟩

/-- The image is written by `commitImage` alone. -/
theorem runOps_img (ops : List SeqOp) (s : State) (h : SeqOp.commitImage ∉ ops) :
    (runOps ops s).img = s.img ∧ (runOps ops s).imgValid = s.imgValid := by
  induction ops generalizing s with
  | nil => exact ⟨rfl, rfl⟩
  | cons o ops ih =>
    have ho : (runOp o s).img = s.img ∧ (runOp o s).imgValid = s.imgValid := by
      cases o with
      | commitImage => exact absurd List.mem_cons_self h
      | _ => exact ⟨rfl, rfl⟩
    have h' := ih (runOp o s) (fun hm => h (List.mem_cons_of_mem _ hm))
    exact ⟨h'.1.trans ho.1, h'.2.trans ho.2⟩

/-- RDATA is written by `latchRdata` alone. -/
theorem runOps_rdata (ops : List SeqOp) (s : State) (h : SeqOp.latchRdata ∉ ops) :
    (runOps ops s).rdata = s.rdata := by
  induction ops generalizing s with
  | nil => rfl
  | cons o ops ih =>
    have ho : (runOp o s).rdata = s.rdata := by
      cases o with
      | latchRdata => exact absurd List.mem_cons_self h
      | _ => rfl
    exact (ih (runOp o s) (fun hm => h (List.mem_cons_of_mem _ hm))).trans ho

/-! ## Completing a request -/

theorem ticks_runOps (n : Nat) (s : State) :
    ticks n s = { runOps (s.seq.take n) s with seq := s.seq.drop n } := by
  induction n generalizing s with
  | zero => cases s; rfl
  | succ n ih =>
    rw [ticks, ih]
    cases h : s.seq with
    | nil =>
      have ht : tick s = s := by rw [tick, h]
      rw [ht, h]; simp
    | cons o rest =>
      have ht : tick s = { runOp o s with seq := rest } := by rw [tick, h]; exact runOp_withSeq o s rest
      rw [ht, List.take_succ_cons, List.drop_succ_cons, runOps_cons]
      exact congrArg (fun t : State => { t with seq := rest.drop n }) (runOps_withSeq _ _ _)

theorem complete_eq (s : State) : complete s = { runOps s.seq s with seq := [] } := by
  rw [complete, ticks_runOps, List.take_length, List.drop_length]

@[simp] theorem complete_seq (s : State) : (complete s).seq = [] := by rw [complete_eq]

theorem complete_of_idle {s : State} (h : s.seq = []) : complete s = s := by
  rw [complete, h]; rfl

/-- An accepted request, completed: its operations run in order. -/
theorem complete_accept (ops : List SeqOp) (s : State) :
    complete (accept ops s) = runOps ops (accept [] s) := by
  rw [complete_eq, accept_seq]
  exact ((runOps_withSeq ops (accept ops s) []).symm :)

/-- A request seen midway completes to the same state. -/
theorem complete_ticks (n : Nat) (s : State) : complete (ticks n s) = complete s := by
  rw [ticks_runOps, complete_eq, complete_eq, runOps_withSeq, ← runOps_append, List.take_append_drop]

theorem complete_runMidway (ops : List SeqOp) (n : Nat) (s : State) :
    complete (runMidway ops n s) = complete (accept ops s) := complete_ticks _ _

/-- The operations before the response stand at the front of all of them. -/
theorem take_beforeResponse (ops : List SeqOp) (n : Nat) :
    ops.take (min n (beforeResponse ops).length) = (beforeResponse ops).take n := by
  obtain ⟨rest, hr⟩ : ∃ rest, beforeResponse ops ++ rest = ops := List.takeWhile_prefix _
  generalize beforeResponse ops = before at hr ⊢
  rw [← hr, List.take_append_of_le_length (Nat.min_le_right _ _), List.take_eq_take_iff]
  omega

theorem commitImage_not_mem_beforeResponse (ops : List SeqOp) : SeqOp.commitImage ∉ beforeResponse ops := by
  intro h
  exact absurd (List.mem_takeWhile_imp h) (by decide)

/-- A request without an image to write has done all its operations before its response. -/
theorem beforeResponse_of_not_mem {ops : List SeqOp} (h : SeqOp.commitImage ∉ ops) : beforeResponse ops = ops := by
  refine List.takeWhile_eq_self_iff.2 fun o ho => ?_
  cases o with
  | commitImage => exact absurd ho h
  | _ => rfl

/-- A request seen midway has done its first operations, and has the rest still to do. -/
theorem runMidway_eq (ops : List SeqOp) (n : Nat) (s : State) :
    runMidway ops n s = { runOps ((beforeResponse ops).take n) (accept [] s) with
      seq := ops.drop (min n (beforeResponse ops).length) } := by
  rw [runMidway, ticks_runOps, accept_seq, show accept ops s = { accept [] s with seq := ops } from rfl, runOps_withSeq,
    take_beforeResponse]

@[simp] theorem runMidway_busy (ops : List SeqOp) (n : Nat) (s : State) : (runMidway ops n s).busy = true := by
  rw [runMidway_eq]
  exact (runOps_frame _ _).1

/-- The image is not written while a request runs. -/
@[simp] theorem runMidway_img (ops : List SeqOp) (n : Nat) (s : State) : (runMidway ops n s).img = s.img := by
  rw [runMidway_eq]
  exact (runOps_img _ (accept [] s) fun h =>
    commitImage_not_mem_beforeResponse ops (List.mem_of_mem_take h)).1

@[simp] theorem runMidway_imgValid (ops : List SeqOp) (n : Nat) (s : State) :
    (runMidway ops n s).imgValid = s.imgValid := by
  rw [runMidway_eq]
  exact (runOps_img _ (accept [] s) fun h =>
    commitImage_not_mem_beforeResponse ops (List.mem_of_mem_take h)).2

/-- What a request seen midway keeps: the errors, the past and the host's list. -/
theorem runMidway_frame (ops : List SeqOp) (n : Nat) (s : State) :
    (runMidway ops n s).errIll = s.errIll ∧ (runMidway ops n s).errNosess = s.errNosess ∧
    (runMidway ops n s).errDir = s.errDir ∧ (runMidway ops n s).past = s.past ∧
    (runMidway ops n s).host = s.host := by
  obtain ⟨-, h1, h2, h3, -, -, -, h4, h5⟩ := runOps_frame ((beforeResponse ops).take n) (accept [] s)
  rw [runMidway_eq]
  exact ⟨h1, h2, h3, h4, h5⟩

/-- A request, from its acceptance to its response. -/
theorem runRequest_eq (ops : List SeqOp) (s : State) :
    runRequest ops s = respond (runOps ops (accept [] s)) := by rw [runRequest, complete_accept]

/-- Acceptance and response do not matter to the operations between them: they can be told last. -/
theorem runOps_accept (ops : List SeqOp) (s : State) :
    runOps ops (accept [] s) = accept [] (runOps ops s) := by
  induction ops generalizing s with
  | nil => rfl
  | cons o ops ih =>
    have h : runOp o (accept [] s) = accept [] (runOp o s) := by cases o <;> rfl
    rw [runOps_cons, h, ih, runOps_cons]

/-! ## What an outcome can be -/

/-- Every meaning runs the operations that `sequenceOf` names, or takes the fault its checks find. -/
theorem exec_eq_perform (i : Instr) (s : State) : exec i s = perform (sequenceOf i s) s := by
  cases i <;> rfl

theorem perform_cases {r : Except FaultKind (List SeqOp)} {s t : State} (h : perform r s = .next t) :
    (∃ k, r = .error k ∧ t = raiseFault k s) ∨ (∃ ops, r = .ok ops ∧ t = runRequest ops s) := by
  cases r with
  | error k => exact .inl ⟨k, rfl, (Host.Outcome.next.inj h).symm⟩
  | ok ops => exact .inr ⟨ops, rfl, (Host.Outcome.next.inj h).symm⟩

/-- What `exec` can do. -/
theorem exec_cases {i : Instr} {s t : State} (h : exec i s = .next t) :
    (∃ k, sequenceOf i s = .error k ∧ t = raiseFault k s) ∨
    (∃ ops, sequenceOf i s = .ok ops ∧ t = runRequest ops s) :=
  perform_cases (exec_eq_perform i s ▸ h)

/-- A ready block does what the host's next action asks. -/
theorem step_of_ready {s : State} (h : s.busy = false) : step s = nextAction s := by
  simp only [step, hostStep, h, Bool.false_and, Bool.false_eq_true, if_false]

/-- A busy block goes on to the response, unless it is reset. -/
theorem step_of_busy {s : State} (h : s.busy = true) (hr : resetNow s = false) :
    step s = .next (respond (complete s)) := by
  simp only [step, hostStep, h, hr, Bool.not_false, Bool.and_self, if_true]

theorem nextAction_present {s : State} {p : Presented} {rest : List HostAction} (h : s.host = .present p :: rest) :
    nextAction s = takeRequest p { s with host := rest } := by
  simp only [nextAction, h]

theorem nextAction_presentMidway {s : State} {p : Presented} {n : Nat} {rest : List HostAction}
    (h : s.host = .presentMidway p n :: rest) :
    nextAction s = takeMidway p n { s with host := rest } := by
  simp only [nextAction, h]

theorem resetNow_iff {s : State} : resetNow s = true ↔ ∃ rest, s.host = .rst :: rest := by
  unfold resetNow
  cases s.host with
  | nil => simp
  | cons a rest => cases a <;> simp

/-- What a step can do: a reset; and without one, a running request completes, or the host's next action idles, faults,
runs a whole request, or starts one that is seen midway. -/
theorem step_cases {s t : State} (h : step s = .next t) :
    (resetNow s = true ∧ ∃ rest, s.host = .rst :: rest ∧ t = applyReset { s with host := rest }) ∨
    (resetNow s = false ∧
      ((s.busy = true ∧ t = respond (complete s)) ∨
      (s.busy = false ∧ ∃ rest, t = idleCycle { s with host := rest }) ∨
      (s.busy = false ∧ ∃ k rest, t = raiseFault k { s with host := rest }) ∨
      (s.busy = false ∧ ∃ i ops rest, sequenceOf i { s with host := rest } = .ok ops ∧
        t = runRequest ops { s with host := rest }) ∨
      (s.busy = false ∧ ∃ i ops n rest, sequenceOf i { s with host := rest } = .ok ops ∧
        t = runMidway ops n { s with host := rest }))) := by
  cases hr : resetNow s with
  | true =>
    obtain ⟨rest, hh⟩ := resetNow_iff.1 hr
    refine .inl ⟨rfl, rest, hh, ?_⟩
    simpa [step, hostStep, hr, nextAction, hh] using h.symm
  | false =>
    refine .inr ⟨rfl, ?_⟩
    rcases Bool.eq_false_or_eq_true s.busy with hb | hb
    · rw [step_of_busy hb hr] at h
      exact .inl ⟨hb, (Host.Outcome.next.inj h).symm⟩
    · refine .inr ?_
      rw [step_of_ready hb] at h
      unfold nextAction at h
      split at h
      · next hs =>
        refine .inl ⟨hb, [], (Host.Outcome.next.inj h).symm.trans ?_⟩
        rw [← hs]
      · exact .inl ⟨hb, _, (Host.Outcome.next.inj h).symm⟩
      · next hs => exact absurd (resetNow_iff.2 ⟨_, hs⟩) (by simp [hr])
      · next rest hs =>
        right
        unfold takeRequest at h
        split at h
        · exact .inl ⟨hb, _, _, (Host.Outcome.next.inj h).symm⟩
        · rcases exec_cases h with ⟨k, -, ht⟩ | ⟨ops, ho, ht⟩
          · exact .inl ⟨hb, _, _, ht⟩
          · exact .inr (.inl ⟨hb, _, _, _, ho, ht⟩)
      · next rest hs =>
        right
        unfold takeMidway at h
        split at h
        · exact .inl ⟨hb, _, _, (Host.Outcome.next.inj h).symm⟩
        · split at h
          · exact .inl ⟨hb, _, _, (Host.Outcome.next.inj h).symm⟩
          · next ho => exact .inr (.inr ⟨hb, _, _, _, _, ho, (Host.Outcome.next.inj h).symm⟩)

end Sys2Proof.Machine
end

