-- ==== Sys2Proof/Laws/Requests.lean ====
section
/-! SUPPORT. What each primitive's operations do, said once: the lines they leave, the trace they append, the byte they
assemble. The results of the requests follow from these by `runOps_append`. -/

namespace Sys2Proof.Machine

/-- BEGIN. -/
theorem runOps_beginOps (c : Bool) (s : State) :
    runOps (beginOps c) s =
      moved { ce := true, sclk := false, sclkOe := true, ioDir := .output, ioOut := s.lines.ioOut } (beginTrace c) s := by
  cases c <;> simp [beginOps, beginTrace, emit, moved]

/-- END. -/
theorem runOps_endOps (s : State) :
    runOps endOps s = moved { s.lines with ce := false } endTrace s := by
  simp [endOps, endTrace, emit, moved]

/-- WRBYTE after its checks. -/
theorem runOps_wrbyteOps (v : Byte) (rel : Bool) (s : State) :
    runOps (wrbyteOps v rel) s =
      moved { s.lines with sclk := rel, ioDir := if rel then .input else s.lines.ioDir, ioOut := bitOf v 7 }
        (wrbyteTrace v rel) s := by
  cases rel <;> simp [wrbyteOps, wrbitOps, wrbyteTrace, wrbitTrace, indices8, emit, moved]

/-- The device's answer depends on the answers assumed of it, on the past and on the trace, and on nothing else. -/
theorem deviceAnswer_congr {s t : State} (hd : s.device = t.device) (hp : s.past = t.past) (ht : s.trace = t.trace) :
    deviceAnswer s = deviceAnswer t := by
  simp only [deviceAnswer, hd, hp, ht]

/-- The events of one bit of RDBYTE that samples `b`. -/
def sampledBit (b : Bool) : PadTrace := [.sclk true, .hold .ckh, .sclk false, .hold .ckl, .sample b]

/-- The state after bit `i` of an RDBYTE that sampled `b`. -/
def afterBit (i : Fin 8) (b : Bool) (s : State) : State :=
  { s with
    lines := { s.lines with sclk := false }
    shift := setBit s.shift i b
    device := s.device.tail
    trace := s.trace ++ sampledBit b }

/-- One bit of RDBYTE, with the answer it samples. -/
theorem runOps_rdbitOps (i : Fin 8) (s : State) :
    ∃ b, b = deviceAnswer { s with trace := s.trace ++ (sampledBit b).take 4 } ∧
      runOps (rdbitOps i) s = afterBit i b s := by
  refine ⟨deviceAnswer { s with trace := s.trace ++ [.sclk true, .hold .ckh, .sclk false, .hold .ckl] }, rfl, ?_⟩
  simp only [rdbitOps, afterBit, sampledBit, runOps_cons, runOps_nil, runOp_setSCLK, runOp_hold, runOp_sampleBit,
    sampleInto, emit, applyEvent_sclk, applyEvent_hold, applyEvent_sample, List.append_assoc, List.cons_append,
    List.nil_append]
  congr 2

/-- Setting bit `i` leaves the other bits. -/
theorem bitOf_setBit (v : Byte) (i j : Fin 8) (b : Bool) :
    bitOf (setBit v i b) j = if j = i then b else bitOf v j := by
  have key : ∀ v : Byte, ∀ i j : Fin 8, ∀ b : Bool,
      bitOf (setBit v i b) j = if j = i then b else bitOf v j := by
    intro v i j b
    simp only [bitOf, setBit]
    fin_cases i <;> fin_cases j <;> cases b <;> simp
  exact key v i j b

/-- RDBYTE after its checks: the byte it assembles holds, bit by bit, the eight answers it sampled (R136, R137). -/
theorem runOps_rdbyteOps (s : State) :
    ∃ x : Byte, SampledByte s [] x ∧ runOps rdbyteOps s =
      { moved { s.lines with sclk := false } (rdbyteTrace x) s with
        rdata := x, shift := x, device := s.device.drop 8 } := by
  have hsplit : rdbyteOps = .clearShift :: (rdbitOps 0 ++ (rdbitOps 1 ++ (rdbitOps 2 ++ (rdbitOps 3 ++
      (rdbitOps 4 ++ (rdbitOps 5 ++ (rdbitOps 6 ++ (rdbitOps 7 ++ [.latchRdata])))))))) := rfl
  rw [hsplit]
  simp only [runOps_cons, runOps_append, runOps_nil, runOp_clearShift, runOp_latchRdata]
  obtain ⟨z, hz⟩ : ∃ z, z = { s with shift := 0x00 } := ⟨_, rfl⟩
  rw [← hz]
  obtain ⟨b0, h0, e⟩ := runOps_rdbitOps 0 z
  rw [e]
  obtain ⟨b1, h1, e⟩ := runOps_rdbitOps 1 (afterBit 0 b0 z)
  rw [e]
  obtain ⟨b2, h2, e⟩ := runOps_rdbitOps 2 (afterBit 1 b1 (afterBit 0 b0 z))
  rw [e]
  obtain ⟨b3, h3, e⟩ := runOps_rdbitOps 3 (afterBit 2 b2 (afterBit 1 b1 (afterBit 0 b0 z)))
  rw [e]
  obtain ⟨b4, h4, e⟩ := runOps_rdbitOps 4 (afterBit 3 b3 (afterBit 2 b2 (afterBit 1 b1 (afterBit 0 b0 z))))
  rw [e]
  obtain ⟨b5, h5, e⟩ := runOps_rdbitOps 5 (afterBit 4 b4 (afterBit 3 b3 (afterBit 2 b2 (afterBit 1 b1 (afterBit 0 b0 z)))))
  rw [e]
  obtain ⟨b6, h6, e⟩ := runOps_rdbitOps 6 (afterBit 5 b5 (afterBit 4 b4 (afterBit 3 b3 (afterBit 2 b2 (afterBit 1 b1 (afterBit 0 b0 z))))))
  rw [e]
  obtain ⟨b7, h7, e⟩ := runOps_rdbitOps 7 (afterBit 6 b6 (afterBit 5 b5 (afterBit 4 b4 (afterBit 3 b3 (afterBit 2 b2 (afterBit 1 b1 (afterBit 0 b0 z)))))))
  rw [e]
  clear e hsplit
  obtain ⟨x, hx⟩ : ∃ x, x = setBit (setBit (setBit (setBit (setBit (setBit (setBit (setBit 0x00 0 b0) 1 b1) 2 b2) 3 b3)
    4 b4) 5 b5) 6 b6) 7 b7 := ⟨_, rfl⟩
  have x0 : bitOf x 0 = b0 := by rw [hx]; simp [bitOf_setBit]
  have x1 : bitOf x 1 = b1 := by rw [hx]; simp [bitOf_setBit]
  have x2 : bitOf x 2 = b2 := by rw [hx]; simp [bitOf_setBit]
  have x3 : bitOf x 3 = b3 := by rw [hx]; simp [bitOf_setBit]
  have x4 : bitOf x 4 = b4 := by rw [hx]; simp [bitOf_setBit]
  have x5 : bitOf x 5 = b5 := by rw [hx]; simp [bitOf_setBit]
  have x6 : bitOf x 6 = b6 := by rw [hx]; simp [bitOf_setBit]
  have x7 : bitOf x 7 = b7 := by rw [hx]; simp [bitOf_setBit]
  have htr : rdbyteTrace x = sampledBit b0 ++ (sampledBit b1 ++ (sampledBit b2 ++ (sampledBit b3 ++ (sampledBit b4 ++
      (sampledBit b5 ++ (sampledBit b6 ++ sampledBit b7)))))) := by
    simp [rdbyteTrace, rdbitTrace, indices8, sampledBit, x0, x1, x2, x3, x4, x5, x6, x7]
  refine ⟨x, ?_, ?_⟩
  rotate_left
  · rw [htr, hz]
    simp only [afterBit, moved, ← hx, List.append_assoc, ← List.drop_one, List.drop_drop]
  · subst hz
    intro i
    rw [htr, List.nil_append]
    fin_cases i
    · exact x0.trans (h0.trans (deviceAnswer_congr rfl rfl (by simp [sampledBit])))
    · exact x1.trans (h1.trans (deviceAnswer_congr (by simp [afterBit, ← List.drop_one]) rfl
        (by simp [afterBit, sampledBit])))
    · exact x2.trans (h2.trans (deviceAnswer_congr (by simp [afterBit, ← List.drop_one]) rfl
        (by simp [afterBit, sampledBit])))
    · exact x3.trans (h3.trans (deviceAnswer_congr (by simp [afterBit, ← List.drop_one]) rfl
        (by simp [afterBit, sampledBit])))
    · exact x4.trans (h4.trans (deviceAnswer_congr (by simp [afterBit, ← List.drop_one]) rfl
        (by simp [afterBit, sampledBit])))
    · exact x5.trans (h5.trans (deviceAnswer_congr (by simp [afterBit, ← List.drop_one]) rfl
        (by simp [afterBit, sampledBit])))
    · exact x6.trans (h6.trans (deviceAnswer_congr (by simp [afterBit, ← List.drop_one]) rfl
        (by simp [afterBit, sampledBit])))
    · exact x7.trans (h7.trans (deviceAnswer_congr (by simp [afterBit, ← List.drop_one]) rfl
        (by simp [afterBit, sampledBit])))

/-- Eight WRBYTEs in a row. -/
theorem runOps_wrbytes (b : Bytes8) (s : State) :
    runOps (indices8.flatMap fun k => wrbyteOps (byteAt b k) false) s =
      moved { s.lines with sclk := false, ioOut := bitOf b.b7 7 } (wrbytesTrace b) s := by
  simp only [indices8, List.flatMap_cons, List.flatMap_nil, runOps_append, runOps_wrbyteOps,
    wrbytesTrace, moved, List.append_assoc, List.append_nil, Bool.false_eq_true, if_false]
  rfl

@[simp] theorem rdbyteTrace_length (x : Byte) : (rdbyteTrace x).length = 40 := rfl

/-- The state after byte `k` of a burst read was `x`. -/
def afterByte (k : Fin 8) (x : Byte) (s : State) : State :=
  { s with
    lines := { s.lines with sclk := false }
    rdata := x, shift := x
    burst := setByteAt s.burst k x
    device := s.device.drop 8
    trace := s.trace ++ rdbyteTrace x }

theorem runOps_burstByte (k : Fin 8) (s : State) :
    ∃ x : Byte, SampledByte s [] x ∧ runOps (rdbyteOps ++ [.bufferByte k]) s = afterByte k x s := by
  obtain ⟨x, hx, e⟩ := runOps_rdbyteOps s
  exact ⟨x, hx, by rw [runOps_append, e]; rfl⟩

/-- Byte `k` of a burst, told from the state `s` before the burst: `s'` is the state before that byte, `pre` the events
and `8 * k` the answers between them. -/
theorem sampledByte_inBurst {s s' : State} {pre : PadTrace} {k : Nat} {x : Byte} (post : PadTrace)
    (hpre : pre.length = 40 * k) (hd : s'.device = s.device.drop (8 * k)) (hp : s'.past = s.past)
    (ht : s'.trace = s.trace ++ pre) (h : SampledByte s' [] x) (i : Fin 8) :
    bitOf x i = deviceAnswer { s with
      device := s.device.drop (8 * k + i.val)
      trace := s.trace ++ (pre ++ (rdbyteTrace x ++ post)).take (40 * k + (5 * i.val + 4)) } := by
  have hi : 5 * i.val + 4 ≤ (rdbyteTrace x).length := by rw [rdbyteTrace_length]; omega
  rw [← hpre, List.take_length_add_append, List.take_append_of_le_length hi]
  exact (h i).trans (deviceAnswer_congr (by simp [hd]) hp (by simp [ht]))

/-- Eight RDBYTEs in a row, each copied to the burst buffer. -/
theorem runOps_burstBytes (s : State) :
    ∃ t : Bytes8, SampledBytes s [] t ∧
      runOps (indices8.flatMap fun k => rdbyteOps ++ [.bufferByte k]) s =
        { moved { s.lines with sclk := false } (rdbytesTrace t) s with
          rdata := t.b7, shift := t.b7, burst := t, device := s.device.drop 64 } := by
  have hsplit : ∀ f : Fin 8 → List SeqOp, indices8.flatMap f =
      f 0 ++ (f 1 ++ (f 2 ++ (f 3 ++ (f 4 ++ (f 5 ++ (f 6 ++ (f 7 ++ []))))))) := fun f => rfl
  rw [hsplit]
  simp only [List.append_nil]
  rw [runOps_append, runOps_append _ _ (runOps _ s), runOps_append _ _ (runOps _ (runOps _ s)),
    runOps_append _ _ (runOps _ (runOps _ (runOps _ s))),
    runOps_append _ _ (runOps _ (runOps _ (runOps _ (runOps _ s)))),
    runOps_append _ _ (runOps _ (runOps _ (runOps _ (runOps _ (runOps _ s))))),
    runOps_append _ _ (runOps _ (runOps _ (runOps _ (runOps _ (runOps _ (runOps _ s))))))]
  obtain ⟨x0, h0, e⟩ := runOps_burstByte 0 s
  rw [e]
  obtain ⟨x1, h1, e⟩ := runOps_burstByte 1 (afterByte 0 x0 s)
  rw [e]
  obtain ⟨x2, h2, e⟩ := runOps_burstByte 2 (afterByte 1 x1 (afterByte 0 x0 s))
  rw [e]
  obtain ⟨x3, h3, e⟩ := runOps_burstByte 3 (afterByte 2 x2 (afterByte 1 x1 (afterByte 0 x0 s)))
  rw [e]
  obtain ⟨x4, h4, e⟩ := runOps_burstByte 4 (afterByte 3 x3 (afterByte 2 x2 (afterByte 1 x1 (afterByte 0 x0 s))))
  rw [e]
  obtain ⟨x5, h5, e⟩ := runOps_burstByte 5 (afterByte 4 x4 (afterByte 3 x3 (afterByte 2 x2 (afterByte 1 x1 (afterByte 0 x0 s)))))
  rw [e]
  obtain ⟨x6, h6, e⟩ := runOps_burstByte 6 (afterByte 5 x5 (afterByte 4 x4 (afterByte 3 x3 (afterByte 2 x2 (afterByte 1 x1 (afterByte 0 x0 s))))))
  rw [e]
  obtain ⟨x7, h7, e⟩ := runOps_burstByte 7 (afterByte 6 x6 (afterByte 5 x5 (afterByte 4 x4 (afterByte 3 x3 (afterByte 2 x2 (afterByte 1 x1 (afterByte 0 x0 s)))))))
  rw [e]
  clear e hsplit
  refine ⟨⟨x0, x1, x2, x3, x4, x5, x6, x7⟩, ?_, ?_⟩
  · intro k i
    have ht : rdbytesTrace ⟨x0, x1, x2, x3, x4, x5, x6, x7⟩ = rdbyteTrace x0 ++ (rdbyteTrace x1 ++ (rdbyteTrace x2 ++
      (rdbyteTrace x3 ++ (rdbyteTrace x4 ++ (rdbyteTrace x5 ++ (rdbyteTrace x6 ++ (rdbyteTrace x7 ++ []))))))) := rfl
    rw [List.nil_append, ht, Nat.add_assoc]
    fin_cases k
    · exact sampledByte_inBurst (pre := []) (k := 0)
        (rdbyteTrace x1 ++ (rdbyteTrace x2 ++ (rdbyteTrace x3 ++ (rdbyteTrace x4 ++ (rdbyteTrace x5 ++ (rdbyteTrace x6 ++ (rdbyteTrace x7 ++ []))))))) rfl rfl rfl (List.append_nil _).symm h0 i
    · refine (sampledByte_inBurst (s := s)
        (s' := afterByte 0 x0 s)
        (pre := rdbyteTrace x0) (k := 1)
        (rdbyteTrace x2 ++ (rdbyteTrace x3 ++ (rdbyteTrace x4 ++ (rdbyteTrace x5 ++ (rdbyteTrace x6 ++ (rdbyteTrace x7 ++ [])))))) (by simp)
        (by simp [afterByte]) rfl (by simp [afterByte]) h1 i).trans (deviceAnswer_congr rfl rfl ?_)
      rfl
    · refine (sampledByte_inBurst (s := s)
        (s' := afterByte 1 x1 (afterByte 0 x0 s))
        (pre := rdbyteTrace x0 ++ rdbyteTrace x1) (k := 2)
        (rdbyteTrace x3 ++ (rdbyteTrace x4 ++ (rdbyteTrace x5 ++ (rdbyteTrace x6 ++ (rdbyteTrace x7 ++ []))))) (by simp)
        (by simp [afterByte]) rfl (by simp [afterByte]) h2 i).trans (deviceAnswer_congr rfl rfl ?_)
      simp only [List.append_assoc]
    · refine (sampledByte_inBurst (s := s)
        (s' := afterByte 2 x2 (afterByte 1 x1 (afterByte 0 x0 s)))
        (pre := rdbyteTrace x0 ++ rdbyteTrace x1 ++ rdbyteTrace x2) (k := 3)
        (rdbyteTrace x4 ++ (rdbyteTrace x5 ++ (rdbyteTrace x6 ++ (rdbyteTrace x7 ++ [])))) (by simp)
        (by simp [afterByte]) rfl (by simp [afterByte]) h3 i).trans (deviceAnswer_congr rfl rfl ?_)
      simp only [List.append_assoc]
    · refine (sampledByte_inBurst (s := s)
        (s' := afterByte 3 x3 (afterByte 2 x2 (afterByte 1 x1 (afterByte 0 x0 s))))
        (pre := rdbyteTrace x0 ++ rdbyteTrace x1 ++ rdbyteTrace x2 ++ rdbyteTrace x3) (k := 4)
        (rdbyteTrace x5 ++ (rdbyteTrace x6 ++ (rdbyteTrace x7 ++ []))) (by simp)
        (by simp [afterByte]) rfl (by simp [afterByte]) h4 i).trans (deviceAnswer_congr rfl rfl ?_)
      simp only [List.append_assoc]
    · refine (sampledByte_inBurst (s := s)
        (s' := afterByte 4 x4 (afterByte 3 x3 (afterByte 2 x2 (afterByte 1 x1 (afterByte 0 x0 s)))))
        (pre := rdbyteTrace x0 ++ rdbyteTrace x1 ++ rdbyteTrace x2 ++ rdbyteTrace x3 ++ rdbyteTrace x4) (k := 5)
        (rdbyteTrace x6 ++ (rdbyteTrace x7 ++ [])) (by simp)
        (by simp [afterByte]) rfl (by simp [afterByte]) h5 i).trans (deviceAnswer_congr rfl rfl ?_)
      simp only [List.append_assoc]
    · refine (sampledByte_inBurst (s := s)
        (s' := afterByte 5 x5 (afterByte 4 x4 (afterByte 3 x3 (afterByte 2 x2 (afterByte 1 x1 (afterByte 0 x0 s))))))
        (pre := rdbyteTrace x0 ++ rdbyteTrace x1 ++ rdbyteTrace x2 ++ rdbyteTrace x3 ++ rdbyteTrace x4 ++ rdbyteTrace x5) (k := 6)
        (rdbyteTrace x7 ++ []) (by simp)
        (by simp [afterByte]) rfl (by simp [afterByte]) h6 i).trans (deviceAnswer_congr rfl rfl ?_)
      simp only [List.append_assoc]
    · refine (sampledByte_inBurst (s := s)
        (s' := afterByte 6 x6 (afterByte 5 x5 (afterByte 4 x4 (afterByte 3 x3 (afterByte 2 x2 (afterByte 1 x1 (afterByte 0 x0 s)))))))
        (pre := rdbyteTrace x0 ++ rdbyteTrace x1 ++ rdbyteTrace x2 ++ rdbyteTrace x3 ++ rdbyteTrace x4 ++ rdbyteTrace x5 ++ rdbyteTrace x6) (k := 7)
        [] (by simp)
        (by simp [afterByte]) rfl (by simp [afterByte]) h7 i).trans (deviceAnswer_congr rfl rfl ?_)
      simp only [List.append_assoc]
  · simp only [afterByte, moved, setByteAt, rdbytesTrace, indices8, List.flatMap_cons, List.flatMap_nil, byteAt,
      List.append_assoc, List.append_nil, List.drop_drop]

/-! ## Sessions -/

@[simp] theorem moved_moved (l l' : Lines) (t t' : PadTrace) (s : State) :
    moved l' t' (moved l t s) = moved l' (t ++ t') s := by
  simp only [moved, List.append_assoc]

@[simp] theorem moved_lines (l : Lines) (t : PadTrace) (s : State) : (moved l t s).lines = l := rfl

/-- What is sampled after a movement, told from the state before it. -/
theorem sampledByte_moved {l : Lines} {t pre : PadTrace} {s : State} {x : Byte}
    (h : SampledByte (moved l t s) pre x) : SampledByte s (t ++ pre) x := fun i =>
  (h i).trans (deviceAnswer_congr rfl rfl (by simp [moved]))

theorem sampledBytes_moved {l : Lines} {t pre : PadTrace} {s : State} {x : Bytes8}
    (h : SampledBytes (moved l t s) pre x) : SampledBytes s (t ++ pre) x := fun k i =>
  (h k i).trans (deviceAnswer_congr rfl rfl (by simp [moved]))

/-- A request is its operations between acceptance and response. -/
theorem perform_ok (ops : List SeqOp) (s : State) :
    perform (.ok ops) s = .next (respond (accept [] (runOps ops s))) := by
  rw [perform, runRequest_eq, runOps_accept]

/-- A fault, in the terms of the claims. -/
theorem raiseFault_eq (k : FaultKind) (s : State) : raiseFault k s = afterFault k s := by
  cases k <;> simp [raiseFault, afterFault]

/-- A session that reads one byte. -/
theorem perform_readSession (c : Bool) (cmd : Byte) (s : State) :
    ∃ x, SampledByte s (beginTrace c ++ wrbyteTrace cmd true) x ∧
      perform (.ok (readSession c cmd)) s =
        .next (afterRead (sessionLines .input (bitOf cmd 7)) (readTrace c cmd x) x s) := by
  simp only [perform_ok, readSession, runOps_append, runOps_beginOps, runOps_wrbyteOps, moved_moved, moved_lines]
  obtain ⟨x, hx, e⟩ := runOps_rdbyteOps (moved
    { ce := true, sclk := true, sclkOe := true, ioDir := .input, ioOut := bitOf cmd 7 }
    (beginTrace c ++ wrbyteTrace cmd true) s)
  refine ⟨x, by simpa using sampledByte_moved hx, ?_⟩
  simp only [if_true, e, runOps_endOps, moved_lines, moved_moved]
  simp only [afterRead, afterRequest, readTrace, sessionLines, accept, respond, moved, List.append_assoc]

/-- A session that writes one byte. -/
theorem perform_writeSession (c : Bool) (cmd v : Byte) (s : State) :
    perform (.ok (writeSession c cmd v)) s =
      .next (afterRequest (sessionLines .output (bitOf v 7)) (writeTrace c cmd v) s) := by
  simp only [perform_ok, writeSession, runOps_append, runOps_beginOps, runOps_wrbyteOps, runOps_endOps, moved_moved,
    moved_lines, Bool.false_eq_true, if_false]
  rfl

/-- A session that reads eight bytes, without and with the image written at its end. -/
theorem perform_burstReadSession (c : Bool) (cmd : Byte) (s : State) :
    ∃ t, SampledBytes s (beginTrace c ++ wrbyteTrace cmd true) t ∧
      perform (.ok (burstReadSession c cmd)) s =
        .next (afterBurst (sessionLines .input (bitOf cmd 7)) (burstReadTrace c cmd t) t s) ∧
      perform (.ok (burstReadSession c cmd ++ [.commitImage])) s =
        .next { afterBurst (sessionLines .input (bitOf cmd 7)) (burstReadTrace c cmd t) t s with
          img := t, imgValid := true } := by
  simp only [perform_ok, burstReadSession, runOps_append _ [_], runOps_append _ endOps, runOps_append (beginOps c ++ _),
    runOps_append (beginOps c), runOps_beginOps, runOps_wrbyteOps, moved_moved, moved_lines]
  obtain ⟨t, ht, e⟩ := runOps_burstBytes (moved
    { ce := true, sclk := true, sclkOe := true, ioDir := .input, ioOut := bitOf cmd 7 }
    (beginTrace c ++ wrbyteTrace cmd true) s)
  refine ⟨t, by simpa using sampledBytes_moved ht, ?_⟩
  simp only [if_true, e, runOps_endOps, runOps_cons, runOps_nil, runOp_commitImage]
  simp only [afterBurst, afterRequest, burstReadTrace, sessionLines, accept, respond, moved, List.append_assoc, and_self]

/-- A session that writes eight bytes. -/
theorem perform_burstWriteSession (c : Bool) (cmd : Byte) (b : Bytes8) (s : State) :
    perform (.ok (burstWriteSession c cmd b)) s =
      .next (afterRequest (sessionLines .output (bitOf b.b7 7)) (burstWriteTrace c cmd b) s) := by
  simp only [perform_ok, burstWriteSession, runOps_append, runOps_beginOps, runOps_wrbyteOps, runOps_wrbytes,
    runOps_endOps, moved_moved, moved_lines, Bool.false_eq_true, if_false]
  rfl

/-! ## Requests, by their operations -/

/-- What acceptance and response make of a state, when the operations between them are told apart. -/
def finish (s : State) : State := respond (accept [] s)

@[simp] theorem finish_lines (s : State) : (finish s).lines = s.lines := rfl

@[simp] theorem finish_finish (s : State) : finish (finish s) = finish s := rfl

@[simp] theorem runOps_finish (ops : List SeqOp) (s : State) : runOps ops (finish s) = finish (runOps ops s) := by
  induction ops generalizing s with
  | nil => rfl
  | cons o ops ih =>
    have h : runOp o (finish s) = finish (runOp o s) := by cases o <;> rfl
    rw [runOps_cons, h, ih, runOps_cons]

/-- A request whose checks pass is its operations. -/
theorem exec_of_ok {i : Instr} {s : State} {ops : List SeqOp} (h : sequenceOf i s = .ok ops) :
    exec i s = .next (finish (runOps ops s)) := by
  rw [exec_eq_perform, h, perform_ok, finish]

/-- A request whose checks find a fault takes it. -/
theorem exec_of_error {i : Instr} {s : State} {k : FaultKind} (h : sequenceOf i s = .error k) :
    exec i s = .next (afterFault k s) := by
  rw [exec_eq_perform, h, perform, raiseFault_eq]

/-- The checks of WRBYTE and RDBYTE, case by case. -/
theorem busFault_of_closed {need : IoDir} {l : Lines} (h : l.ce = false) : busFault need l = some .nosess := by
  simp [busFault, h]

theorem busFault_of_wrong {need : IoDir} {l : Lines} (h : l.ce = true) (hd : l.ioDir ≠ need) :
    busFault need l = some .dir := by
  simp [busFault, h, hd]

theorem busFault_of_right {need : IoDir} {l : Lines} (h : l.ce = true) (hd : l.ioDir = need) :
    busFault need l = none := by
  simp [busFault, h, hd]

/-- The checks pass exactly in an open session with the right direction. -/
theorem busFault_eq_none {need : IoDir} {l : Lines} : busFault need l = none ↔ l.ce = true ∧ l.ioDir = need := by
  cases hc : l.ce with
  | false => simp [busFault_of_closed hc]
  | true =>
    by_cases hd : l.ioDir = need
    · simp [busFault_of_right hc hd, hd]
    · simp [busFault_of_wrong hc hd, hd]

theorem sequenceOf_wrbyte {v : Byte} {rel : Bool} {s : State} (h : s.lines.ce = true) (hd : s.lines.ioDir = .output) :
    sequenceOf (.wrbyte v rel) s = .ok (wrbyteOps v rel) := by
  simp only [sequenceOf, wrbyteSeq, busFault_of_right h hd]

theorem sequenceOf_rdbyte {s : State} (h : s.lines.ce = true) (hd : s.lines.ioDir = .input) :
    sequenceOf .rdbyte s = .ok rdbyteOps := by
  simp only [sequenceOf, rdbyteSeq, busFault_of_right h hd]

/-! ## Where the image is written -/

theorem commitImage_not_mem_beginOps (c : Bool) : SeqOp.commitImage ∉ beginOps c := by
  cases c <;> simp [beginOps]

theorem commitImage_not_mem_wrbyteOps (v : Byte) (rel : Bool) : SeqOp.commitImage ∉ wrbyteOps v rel := by
  simp only [wrbyteOps, List.mem_flatMap, not_exists, not_and]
  intro i _
  simp only [wrbitOps]
  split <;> simp

theorem commitImage_not_mem_rdbyteOps : SeqOp.commitImage ∉ rdbyteOps := by
  simp [rdbyteOps, rdbitOps, indices8]

theorem commitImage_not_mem_endOps : SeqOp.commitImage ∉ endOps := by
  simp [endOps]

theorem commitImage_not_mem_burstReadSession (c : Bool) (cmd : Byte) :
    SeqOp.commitImage ∉ burstReadSession c cmd := by
  simp [burstReadSession, commitImage_not_mem_beginOps, commitImage_not_mem_wrbyteOps, commitImage_not_mem_rdbyteOps,
    commitImage_not_mem_endOps, indices8]

/-- No instruction but BURSTRD has the image written. -/
theorem commitImage_not_mem {i : Instr} {s : State} {ops : List SeqOp} (hi : i ≠ .burstrd)
    (h : sequenceOf i s = .ok ops) : SeqOp.commitImage ∉ ops := by
  cases i with
  | burstrd => exact absurd rfl hi
  | wrbyte v rel =>
    simp only [sequenceOf, wrbyteSeq] at h
    split at h
    · cases h
    · cases h
      exact commitImage_not_mem_wrbyteOps _ _
  | rdbyte =>
    simp only [sequenceOf, rdbyteSeq] at h
    split at h
    · cases h
    · cases h
      exact commitImage_not_mem_rdbyteOps
  | cmdBurstRd =>
    cases h
    exact commitImage_not_mem_burstReadSession _ _
  | cmdNomark bits v =>
    cases h
    rw [nomarkSession]
    split <;> simp [readSession, writeSession, commitImage_not_mem_beginOps, commitImage_not_mem_wrbyteOps,
      commitImage_not_mem_rdbyteOps, commitImage_not_mem_endOps]
  | _ =>
    cases h
    simp [readSession, writeSession, burstWriteSession, commitImage_not_mem_beginOps, commitImage_not_mem_wrbyteOps,
      commitImage_not_mem_rdbyteOps, commitImage_not_mem_endOps]

end Sys2Proof.Machine
end

