-- ==== Sys2Proof/Laws/Device.lean ====
section
/-! SUPPORT. Bytes told by their bits, and what is read from a device whose answers are assumed. -/

namespace Sys2Proof.Machine

theorem byte_ext {x y : Byte} (h : ∀ i : Fin 8, bitOf x i = bitOf y i) : x = y :=
  BitVec.eq_of_getLsbD_eq fun i hi => h ⟨i, hi⟩

theorem bytes8_ext {x y : Bytes8} (h : ∀ k : Fin 8, byteAt x k = byteAt y k) : x = y := by
  cases x
  cases y
  exact Bytes8.mk.injEq .. ▸ ⟨h 0, h 1, h 2, h 3, h 4, h 5, h 6, h 7⟩

/-- While assumed answers are left, the `n`-th of them is the device's answer, whatever the trace. -/
theorem deviceAnswer_scripted {s : State} {n : Nat} {b : Bool} (h : s.device[n]? = some b) (tr : PadTrace) :
    deviceAnswer { s with device := s.device.drop n, trace := tr } = b := by
  obtain ⟨hn, he⟩ := List.getElem?_eq_some_iff.1 h
  simp only [deviceAnswer, List.drop_eq_getElem_cons hn, he]

/-- A byte sampled from a device that presents the bits of `y` is `y`. -/
theorem sampledByte_scripted {s : State} {pre : PadTrace} {x y : Byte} {rest : List Bool}
    (h : SampledByte s pre x) (hd : s.device = bitsOf y ++ rest) : x = y :=
  byte_ext fun i => (h i).trans (deviceAnswer_scripted (by rw [hd]; fin_cases i <;> rfl) _)

/-- The same for eight bytes. -/
theorem sampledBytes_scripted {s : State} {pre : PadTrace} {x y : Bytes8} {rest : List Bool}
    (h : SampledBytes s pre x) (hd : s.device = bitsOf8 y ++ rest) : x = y :=
  bytes8_ext fun k => byte_ext fun i =>
    (h k i).trans (deviceAnswer_scripted (by rw [hd]; fin_cases k <;> fin_cases i <;> rfl) _)

@[simp] theorem bitsOf_length (x : Byte) : (bitsOf x).length = 8 := rfl

@[simp] theorem bitsOf8_length (t : Bytes8) : (bitsOf8 t).length = 64 := rfl

end Sys2Proof.Machine
end

