-- ==== Sys2Proof/Laws/Encoding.lean ====
section
/-! SUPPORT. The fields of an encoded word read back (30_encoding.md R91, R97, R100), and a word put together from its
fields is the word. All are facts of naturals: fields are quotients and remainders. -/

namespace Sys2Proof

theorem reqOp_toNat (w : ReqWord) : (reqOp w).toNat = w.toNat / 2 ^ 76 := by
  have := w.isLt
  simp only [reqOp, BitVec.extractLsb'_toNat, Nat.shiftRight_eq_div_pow]
  omega

theorem reqRsv_toNat (w : ReqWord) : (reqRsv w).toNat = w.toNat / 2 ^ 73 % 8 := by
  simp only [reqRsv, BitVec.extractLsb'_toNat, Nat.shiftRight_eq_div_pow, Nat.reducePow]

theorem reqRel_toNat (w : ReqWord) : (reqRel w).toNat = w.toNat / 2 ^ 72 % 2 := by
  rw [reqRel, BitVec.getLsbD, Nat.testBit_eq_decide_div_mod_eq]
  have : w.toNat / 2 ^ 72 % 2 < 2 := Nat.mod_lt _ (by decide)
  generalize w.toNat / 2 ^ 72 % 2 = n at this
  interval_cases n <;> rfl

theorem reqA_toNat (w : ReqWord) : (reqA w).toNat = w.toNat / 2 ^ 64 % 256 := by
  simp only [reqA, BitVec.extractLsb'_toNat, Nat.shiftRight_eq_div_pow, Nat.reducePow]

theorem reqD_toNat (w : ReqWord) : (reqD w).toNat = w.toNat % 2 ^ 64 := by
  simp only [reqD, BitVec.extractLsb'_toNat, Nat.shiftRight_eq_div_pow, Nat.pow_zero, Nat.div_one]

theorem reqV_toNat (w : ReqWord) : (reqV w).toNat = w.toNat % 256 := by
  simp only [reqV, BitVec.extractLsb'_toNat, Nat.shiftRight_eq_div_pow, Nat.pow_zero, Nat.div_one, Nat.reducePow]

theorem reqWord_toNat (op : BitVec 4) (rel : Bool) (a : Byte) (d : BitVec 64) :
    (reqWord op rel a d).toNat = op.toNat * 2 ^ 76 + rel.toNat * 2 ^ 72 + a.toNat * 2 ^ 64 + d.toNat := by
  have h1 := op.isLt
  have h2 := rel.toNat_lt
  have h3 := a.isLt
  have h4 := d.isLt
  rw [reqWord, BitVec.toNat_ofNat, Nat.mod_eq_of_lt]
  omega

@[simp] theorem reqOp_reqWord (op : BitVec 4) (rel : Bool) (a : Byte) (d : BitVec 64) :
    reqOp (reqWord op rel a d) = op := by
  have h2 := rel.toNat_lt
  have h3 := a.isLt
  have h4 := d.isLt
  rw [← BitVec.toNat_inj, reqOp_toNat, reqWord_toNat]
  omega

@[simp] theorem reqRsv_reqWord (op : BitVec 4) (rel : Bool) (a : Byte) (d : BitVec 64) :
    reqRsv (reqWord op rel a d) = 0#3 := by
  have h2 := rel.toNat_lt
  have h3 := a.isLt
  have h4 := d.isLt
  rw [← BitVec.toNat_inj, reqRsv_toNat, reqWord_toNat, BitVec.toNat_ofNat]
  omega

@[simp] theorem reqRel_reqWord (op : BitVec 4) (rel : Bool) (a : Byte) (d : BitVec 64) :
    reqRel (reqWord op rel a d) = rel := by
  have h2 := rel.toNat_lt
  have h3 := a.isLt
  have h4 := d.isLt
  have h := reqRel_toNat (reqWord op rel a d)
  rw [reqWord_toNat] at h
  generalize reqRel (reqWord op rel a d) = r at h
  cases r <;> cases rel <;> simp at h ⊢ <;> omega

@[simp] theorem reqA_reqWord (op : BitVec 4) (rel : Bool) (a : Byte) (d : BitVec 64) :
    reqA (reqWord op rel a d) = a := by
  have h2 := rel.toNat_lt
  have h3 := a.isLt
  have h4 := d.isLt
  rw [← BitVec.toNat_inj, reqA_toNat, reqWord_toNat]
  omega

@[simp] theorem reqD_reqWord (op : BitVec 4) (rel : Bool) (a : Byte) (d : BitVec 64) :
    reqD (reqWord op rel a d) = d := by
  have h3 := a.isLt
  have h4 := d.isLt
  rw [← BitVec.toNat_inj, reqD_toNat, reqWord_toNat]
  omega

theorem dOfByte_toNat (v : Byte) : (dOfByte v).toNat = v.toNat := by
  have := v.isLt
  rw [dOfByte, BitVec.toNat_ofNat, Nat.mod_eq_of_lt]
  omega

@[simp] theorem reqV_reqWord (op : BitVec 4) (rel : Bool) (a v : Byte) :
    reqV (reqWord op rel a (dOfByte v)) = v := by
  have h3 := a.isLt
  have h4 := v.isLt
  rw [← BitVec.toNat_inj, reqV_toNat, reqWord_toNat, dOfByte_toNat]
  omega

/-- A legal word is put together from its fields. -/
theorem reqWord_fields {w : ReqWord} (h : reqRsv w = 0#3) :
    reqWord (reqOp w) (reqRel w) (reqA w) (reqD w) = w := by
  have h0 := reqRsv_toNat w
  rw [h, BitVec.toNat_ofNat] at h0
  rw [← BitVec.toNat_inj, reqWord_toNat, reqOp_toNat, reqRel_toNat, reqA_toNat, reqD_toNat]
  omega

theorem dOfBytes_toNat (b : Bytes8) : (dOfBytes b).toNat =
    b.b0.toNat + 256 * (b.b1.toNat + 256 * (b.b2.toNat + 256 * (b.b3.toNat + 256 * (b.b4.toNat +
      256 * (b.b5.toNat + 256 * (b.b6.toNat + 256 * b.b7.toNat)))))) := by
  have h0 := b.b0.isLt
  have h1 := b.b1.isLt
  have h2 := b.b2.isLt
  have h3 := b.b3.isLt
  have h4 := b.b4.isLt
  have h5 := b.b5.isLt
  have h6 := b.b6.isLt
  have h7 := b.b7.isLt
  rw [dOfBytes, BitVec.toNat_ofNat, Nat.mod_eq_of_lt]
  omega

/-- The next byte up of a number is the byte of its quotient. -/
theorem byte_above (v r k : Nat) (h : v < 256) : (v + 256 * r) / 2 ^ (8 * (k + 1)) = r / 2 ^ (8 * k) := by
  rw [Nat.mul_add, Nat.pow_add, Nat.mul_comm (2 ^ (8 * k)), ← Nat.div_div_eq_div_mul]
  congr 1
  omega

theorem byteOfD_toNat (d : BitVec 64) (k : Nat) :
    (d.extractLsb' (8 * k) 8).toNat = d.toNat / 2 ^ (8 * k) % 256 := by
  simp only [BitVec.extractLsb'_toNat, Nat.shiftRight_eq_div_pow, Nat.reducePow]

@[simp] theorem bytesOfD_dOfBytes (b : Bytes8) : bytesOfD (dOfBytes b) = b := by
  have e := dOfBytes_toNat b
  have hb : ∀ v : Byte, v.toNat < 256 := fun v => v.isLt
  obtain ⟨b0, b1, b2, b3, b4, b5, b6, b7⟩ := b
  have x := byteOfD_toNat (dOfBytes ⟨b0, b1, b2, b3, b4, b5, b6, b7⟩)
  simp only [e] at x
  simp only [bytesOfD, Bytes8.mk.injEq, ← BitVec.toNat_inj]
  refine ⟨(x 0).trans ?_, (x 1).trans ?_, (x 2).trans ?_, (x 3).trans ?_, (x 4).trans ?_, (x 5).trans ?_,
    (x 6).trans ?_, (x 7).trans ?_⟩
  · have := hb b0
    omega
  all_goals
    simp only [byte_above _ _ _ (hb _), Nat.mul_zero, Nat.pow_zero, Nat.div_one]
    first
    | exact Nat.mod_eq_of_lt (hb _)
    | (rw [Nat.add_mul_mod_self_left]; exact Nat.mod_eq_of_lt (hb _))

@[simp] theorem dOfBytes_bytesOfD (d : BitVec 64) : dOfBytes (bytesOfD d) = d := by
  rw [← BitVec.toNat_inj, dOfBytes_toNat]
  have hd := d.isLt
  simp only [bytesOfD, BitVec.extractLsb'_toNat, Nat.shiftRight_eq_div_pow]
  have p : ∀ k, d.toNat / 2 ^ (8 * k) = d.toNat / 2 ^ (8 * k) % 256 + 256 * (d.toNat / 2 ^ (8 * (k + 1))) := by
    intro k
    rw [Nat.mul_add, Nat.pow_add, ← Nat.div_div_eq_div_mul]
    omega
  have h0 := p 0
  have h1 := p 1
  have h2 := p 2
  have h3 := p 3
  have h4 := p 4
  have h5 := p 5
  have h6 := p 6
  have h7 : d.toNat / 2 ^ 56 = d.toNat / 2 ^ 56 % 256 := by
    rw [Nat.mod_eq_of_lt]
    omega
  simp only [Nat.reduceMul, Nat.reduceAdd, Nat.pow_zero, Nat.div_one] at h0 h1 h2 h3 h4 h5 h6
  simp only [Nat.pow_zero, Nat.div_one]
  rw [show (2 : Nat) ^ 8 = 256 from rfl] at *
  omega

theorem wireCmd_toNat (w : WireWord) : (wireCmd w).toNat = w.toNat % 256 := by
  simp only [wireCmd, BitVec.extractLsb'_toNat, Nat.shiftRight_eq_div_pow, Nat.pow_zero, Nat.div_one, Nat.reducePow]

theorem wireD_toNat (w : WireWord) : (wireD w).toNat = w.toNat / 256 := by
  have := w.isLt
  simp only [wireD, BitVec.extractLsb'_toNat, Nat.shiftRight_eq_div_pow]
  omega

theorem wireV_toNat (w : WireWord) : (wireV w).toNat = w.toNat / 256 % 256 := by
  simp only [wireV, BitVec.extractLsb'_toNat, Nat.shiftRight_eq_div_pow, Nat.reducePow]

theorem wireWord_toNat (c : Byte) (d : BitVec 64) : (wireWord c d).toNat = d.toNat * 2 ^ 8 + c.toNat := by
  have h1 := c.isLt
  have h2 := d.isLt
  rw [wireWord, BitVec.toNat_ofNat, Nat.mod_eq_of_lt]
  omega

@[simp] theorem wireCmd_wireWord (c : Byte) (d : BitVec 64) : wireCmd (wireWord c d) = c := by
  have h1 := c.isLt
  rw [← BitVec.toNat_inj, wireCmd_toNat, wireWord_toNat]
  omega

@[simp] theorem wireD_wireWord (c : Byte) (d : BitVec 64) : wireD (wireWord c d) = d := by
  have h1 := c.isLt
  rw [← BitVec.toNat_inj, wireD_toNat, wireWord_toNat]
  omega

@[simp] theorem wireV_wireWord (c v : Byte) : wireV (wireWord c (dOfByte v)) = v := by
  have h1 := c.isLt
  have h2 := v.isLt
  rw [← BitVec.toNat_inj, wireV_toNat, wireWord_toNat, dOfByte_toNat]
  omega

@[simp] theorem wireWord_fields (w : WireWord) : wireWord (wireCmd w) (wireD w) = w := by
  rw [← BitVec.toNat_inj, wireWord_toNat, wireCmd_toNat, wireD_toNat]
  omega

/-! ## Command bytes -/

@[simp] theorem cmdReg_cmdByte (rc : Bool) (reg : BitVec 5) (rd : Bool) : cmdReg (cmdByte rc reg rd) = reg := by
  revert rc reg rd
  decide

@[simp] theorem cmdRdBit_nomarkByte (bits : BitVec 7) : cmdRdBit (nomarkByte bits) = bits.getLsbD 0 := by
  revert bits
  decide

@[simp] theorem extract_nomarkByte (bits : BitVec 7) : (nomarkByte bits).extractLsb' 0 7 = bits := by
  revert bits
  decide

@[simp] theorem classify_nomarkByte (bits : BitVec 7) : classify (nomarkByte bits) = .nomark := by
  revert bits
  decide

@[simp] theorem classify_ramRead (reg : BitVec 5) : classify (cmdByte true reg true) = .ramRd := by
  revert reg
  decide

@[simp] theorem classify_ramWrite (reg : BitVec 5) : classify (cmdByte true reg false) = .ramWr := by
  revert reg
  decide

theorem classify_clockRead {reg : BitVec 5} (h : reg ≠ 31#5) : classify (cmdByte false reg true) = .clkRd := by
  revert reg
  decide

theorem classify_clockWrite {reg : BitVec 5} (h : reg ≠ 31#5) : classify (cmdByte false reg false) = .clkWr := by
  revert reg
  decide

end Sys2Proof
end

