-- ==== Sys2Proof/Laws/PerInstr.lean ====
section
/-! SUPPORT. Per instruction: the fields a word does not use are 0 in what the encoder makes (30_encoding.md R98, R108). -/

namespace Sys2Proof.Laws.FieldsZero

/-- The encoding of a well-formed instruction leaves every field its operation does not use at 0. -/
def Statement (i : Instr) : Prop := i.wellFormed = true → ignoredFieldsZero (encode i) = true

theorem beginSession : Statement .beginSession := by
  intro _
  simp [encode, ignoredFieldsZero]

theorem endSession : Statement .endSession := by
  intro _
  simp [encode, ignoredFieldsZero]

theorem wrbyte (v : Byte) (rel : Bool) : Statement (.wrbyte v rel) := by
  intro _
  simp [encode, ignoredFieldsZero]

theorem rdbyte : Statement .rdbyte := by
  intro _
  simp [encode, ignoredFieldsZero]

theorem rdreg (a : Byte) : Statement (.rdreg a) := by
  intro _
  simp [encode, ignoredFieldsZero]

theorem wrreg (a v : Byte) : Statement (.wrreg a v) := by
  intro _
  simp [encode, ignoredFieldsZero]

theorem burstrd : Statement .burstrd := by
  intro _
  simp [encode, ignoredFieldsZero]

theorem burstwr (b : Bytes8) : Statement (.burstwr b) := by
  intro _
  simp [encode, ignoredFieldsZero]

theorem classify_burstReadCmd : classify burstReadCmd = .burstRd := by decide

theorem classify_burstWriteCmd : classify burstWriteCmd = .burstWr := by decide

theorem cmdBurstRd : Statement .cmdBurstRd := by
  intro _
  simp [encode, ignoredFieldsZero, classify_burstReadCmd]

theorem cmdBurstWr (b : Bytes8) : Statement (.cmdBurstWr b) := by
  intro _
  simp [encode, ignoredFieldsZero, classify_burstWriteCmd]

theorem cmdClkRd (reg : BitVec 5) : Statement (.cmdClkRd reg) := by
  intro h
  have hr : reg ≠ 31#5 := by simpa [Instr.wellFormed] using h
  simp [encode, ignoredFieldsZero, classify_clockRead hr]

theorem cmdClkWr (reg : BitVec 5) (v : Byte) : Statement (.cmdClkWr reg v) := by
  intro h
  have hr : reg ≠ 31#5 := by simpa [Instr.wellFormed] using h
  simp [encode, ignoredFieldsZero, classify_clockWrite hr]

theorem cmdRamRd (reg : BitVec 5) : Statement (.cmdRamRd reg) := by
  intro _
  simp [encode, ignoredFieldsZero]

theorem cmdRamWr (reg : BitVec 5) (v : Byte) : Statement (.cmdRamWr reg v) := by
  intro _
  simp [encode, ignoredFieldsZero]

theorem cmdNomark (bits : BitVec 7) (v : Byte) : Statement (.cmdNomark bits v) := by
  intro h
  have hw : bits.getLsbD 0 = true → v = 0#8 := by
    intro hb
    simp only [Instr.wellFormed, hb, Bool.not_true, Bool.false_or, beq_iff_eq] at h
    exact h
  have hv : nomarkData (nomarkByte bits) v = v := by
    rw [nomarkData, cmdRdBit_nomarkByte]
    split
    · next hb => exact (hw hb).symm
    · rfl
  simp only [encode, ignoredFieldsZero, wireCmd_wireWord, classify_nomarkByte, wireD_wireWord, wireV_wireWord, hv,
    beq_self_eq_true]

end Sys2Proof.Laws.FieldsZero
end

