-- ==== Sys2Proof/Laws/Trace.lean ====
section
/-! SUPPORT. What is counted, timed and checked along a trace, told part by part. -/

namespace Sys2Proof.Machine

/-- The clock level a trace leaves, from the level it starts with. -/
def levelAfter : Bool → PadTrace → Bool
  | level, [] => level
  | _, .sclk b :: rest => levelAfter b rest
  | level, _ :: rest => levelAfter level rest

theorem levelAfter_append (l : Bool) (t u : PadTrace) : levelAfter l (t ++ u) = levelAfter (levelAfter l t) u := by
  induction t generalizing l with
  | nil => rfl
  | cons e t ih => cases e <;> exact ih _

theorem risingEdges_append (l : Bool) (t u : PadTrace) :
    risingEdges l (t ++ u) = risingEdges l t + risingEdges (levelAfter l t) u := by
  induction t generalizing l with
  | nil => exact (Nat.zero_add _).symm
  | cons e t ih =>
    cases e with
    | sclk b => simp only [List.cons_append, risingEdges, levelAfter, ih, Nat.add_assoc]
    | _ => exact ih _

theorem fallingEdges_append (l : Bool) (t u : PadTrace) :
    fallingEdges l (t ++ u) = fallingEdges l t + fallingEdges (levelAfter l t) u := by
  induction t generalizing l with
  | nil => exact (Nat.zero_add _).symm
  | cons e t ih =>
    cases e with
    | sclk b => simp only [List.cons_append, fallingEdges, levelAfter, ih, Nat.add_assoc]
    | _ => exact ih _

theorem sampleCount_append (t u : PadTrace) : sampleCount (t ++ u) = sampleCount t + sampleCount u :=
  List.countP_append

theorem drivenBits_append (t u : PadTrace) : drivenBits (t ++ u) = drivenBits t ++ drivenBits u :=
  List.filterMap_append

@[simp] theorem minTime_nil : minTime [] = 0 := rfl

theorem minTime_cons (e : PadEvent) (t : PadTrace) :
    minTime (e :: t) = eventTime e + minTime t := by
  simp only [minTime, List.map_cons, List.sum_cons]

theorem minTime_append (t u : PadTrace) : minTime (t ++ u) = minTime t + minTime u := by
  simp only [minTime, List.map_append, List.sum_append]

theorem wireAfter_append (t u : PadTrace) (w : Wire) : wireAfter (t ++ u) w = wireAfter u (wireAfter t w) := by
  simp only [wireAfter, List.foldl_append]

theorem traceOk_append (t u : PadTrace) (w : Wire) :
    traceOk (t ++ u) w = (traceOk t w && traceOk u (wireAfter t w)) := by
  induction t generalizing w with
  | nil => rfl
  | cons e t ih => simp only [List.cons_append, traceOk, ih, Bool.and_assoc, wireAfter, List.foldl_cons]

/-- The wire's lines are the lines the trace leaves. -/
theorem wireAfter_lines (t : PadTrace) (w : Wire) : (wireAfter t w).lines = replay t w.lines := by
  induction t generalizing w with
  | nil => rfl
  | cons e t ih => exact ih _

end Sys2Proof.Machine
end

