-- ==== Sys2Proof/Tests/Slice0.lean ====
section
/-! SUPPORT. Tests with expected values from spec/95_test_vectors.md and the encoding tables, named by the vector they
come from; and, for each obligation with hypotheses, a concrete state and operands that meet them. -/

namespace Sys2Proof.Tests

open Sys2Proof Sys2Proof.Machine

/-! ## Well-formedness: each check refuses an ill-formed term (R70, R102, R104) -/

theorem test_illFormed_cmdClkRd31 : (Instr.cmdClkRd 31).wellFormed = false := by decide
theorem test_illFormed_cmdClkWr31 : (Instr.cmdClkWr 31 0x00).wellFormed = false := by decide
theorem test_illFormed_nomarkReadWithData : (Instr.cmdNomark 0x01 0x12).wellFormed = false := by decide

/-! ## Decoding: words written out from R91, R92, R100, R102, R109 -/

theorem test_decode_begin : decodeTableWord 80 0x10000000000000000000 = some .beginSession := by decide
theorem test_decode_end : decodeTableWord 80 0x20000000000000000000 = some .endSession := by decide
theorem test_decode_wrbyteRel : decodeTableWord 80 0x310000000000000000A5 = some (.wrbyte 0xA5 true) := by decide
theorem test_decode_rdbyte : decodeTableWord 80 0x40000000000000000000 = some .rdbyte := by decide
theorem test_decode_rdreg : decodeTableWord 80 0x50840000000000000000 = some (.rdreg 0x84) := by decide
theorem test_decode_wrreg : decodeTableWord 80 0x608E0000000000000080 = some (.wrreg 0x8E 0x80) := by decide
theorem test_decode_burstrd : decodeTableWord 80 0x70000000000000000000 = some .burstrd := by decide
theorem test_decode_burstwr : decodeTableWord 80 0x80000024010101103000 =
    some (.burstwr ⟨0x00, 0x30, 0x10, 0x01, 0x01, 0x01, 0x24, 0x00⟩) := by decide
theorem test_decode_cmdBurstRd : decodeTableWord 8 0xBF = some .cmdBurstRd := by decide
theorem test_decode_cmdBurstWr : decodeTableWord 8 0xBE = some (.cmdBurstWr ⟨0, 0, 0, 0, 0, 0, 0, 0⟩) := by decide
theorem test_decode_cmdClkRd : decodeTableWord 8 0xBD = some (.cmdClkRd 30) := by decide
theorem test_decode_cmdClkWr : decodeTableWord 16 0x808E = some (.cmdClkWr 7 0x80) := by decide
theorem test_decode_cmdRamRd : decodeTableWord 8 0xFF = some (.cmdRamRd 31) := by decide
theorem test_decode_cmdRamWr : decodeTableWord 16 0x5AFE = some (.cmdRamWr 31 0x5A) := by decide
theorem test_decode_cmdNomark : decodeTableWord 8 0x7F = some (.cmdNomark 0x7F 0x00) := by decide

/-- RQ-2, RQ-3: ignored fields. RQ-4 to RQ-8, RQ-13: illegal words. -/
theorem test_decode_ignoredFields : decodeTableWord 80 0x1100FFFFFFFFFFFFFFFF = some .beginSession := by decide
theorem test_decode_illegal :
    [0x00000000000000000000, 0x90000000000000000000, 0xF0000000000000000000, 0x12000000000000000000,
      0x1E000000000000000000, 0x2F000000000000000000].map (decodeTableWord 80) =
    [none, none, none, none, none, none] := by decide

/-! ## The assembler (R108, R109, R111) -/

theorem test_asm_wpOff : (assembleLine "WP.OFF".toList).toOption = some (some (.req 0x608E0000000000000000)) := by decide
theorem test_asm_wrreg : (assembleLine "WRREG 0x8E, 128 ; protect".toList).toOption =
    some (some (.req 0x608E0000000000000080)) := by decide
theorem test_asm_rdclk31 : assemble (.rdclk 31) = .error (.indexOutOfRange 31) := by decide

/-! ## One step each -/

set_option maxRecDepth 20000

/-- `s` with a device that presents these bytes. -/
def withBytes (bs : List Byte) (s : State) : State := { s with device := bs.flatMap bitsOf }

/-- The reset state with the lines at these levels. -/
def atLines (ce sclk sclkOe : Bool) (d : IoDir) (ioOut : Bool) : State :=
  { State.reset with lines := { ce := ce, sclk := sclk, sclkOe := sclkOe, ioDir := d, ioOut := ioOut } }

/-- In phase WRITE, after BEGIN (BD-1); in phase TURNED, after WRBYTE.REL 0x85 (BD-7). -/
def inWrite : State := atLines true false true .output false
def inTurned : State := atLines true true true .input true

/-- What a vector tells of the state after: STATUS, LINES with bit 5 taken as 0, RDATA. -/
def seen (r : Host.Outcome State Fault Refusal) : Option (Byte × Byte × Byte) :=
  match r with
  | .next t => some (status t, linesByte false t.lines, t.rdata)
  | _ => none

/-- Clock edges, rising and falling, of what a request on a fresh trace appended. -/
def edges (level : Bool) (r : Host.Outcome State Fault Refusal) : Option (Nat × Nat) :=
  match r with
  | .next t => some (risingEdges level t.trace, fallingEdges level t.trace)
  | _ => none

/-- The trace, and the image with its valid bit, after. -/
def traceOf (r : Host.Outcome State Fault Refusal) : Option PadTrace :=
  match r with
  | .next t => some t.trace
  | _ => none
def imageOf (r : Host.Outcome State Fault Refusal) : Option (Bytes8 × Bool) :=
  match r with
  | .next t => some (t.img, t.imgValid)
  | _ => none

theorem test_BD1_begin : seen (exec .beginSession State.reset) = some (0x04, 0x0D, 0x00) := by decide
theorem test_BD2_beginAgain : traceOf (exec .beginSession inTurned) = some
    [.ce false, .hold .ceOff, .sclkOe, .ioDir .output, .sclk false, .ce true, .hold .ceSu] := by decide
theorem test_BD3_end : seen (exec .endSession inWrite) = some (0x00, 0x0C, 0x00) := by decide
theorem test_BD4_endIdle : seen (exec .endSession State.reset) = some (0x00, 0x00, 0x00) := by decide
theorem test_BD7_wrbyteRel : seen (exec (.wrbyte 0x85 true) inWrite) = some (0x04, 0x17, 0x00) := by decide
theorem test_BD10d_wrbyteDir : seen (exec (.wrbyte 0x00 false) inTurned) = some (0x44, 0x17, 0x00) := by decide
theorem test_BD8_rdbyte : seen (exec .rdbyte (withBytes [0x23] inTurned)) = some (0x04, 0x15, 0x23) := by decide
theorem test_BD10f_rdbyteClosed :
    seen (exec .rdbyte (atLines false false true .output false)) = some (0x20, 0x0C, 0x00) := by decide
theorem test_RP1_rdreg : seen (exec (.rdreg 0x84) (withBytes [0x23] State.reset)) = some (0x00, 0x14, 0x23) := by decide
theorem test_RP4_rdregNomark :
    seen (exec (.rdreg 0x00) (withBytes [0x5A] State.reset)) = some (0x00, 0x04, 0x5A) := by decide
theorem test_RP7_wrreg : seen (exec (.wrreg 0x8F 0x80) State.reset) = some (0x00, 0x1C, 0x00) := by decide
theorem test_RP6_wrregEdges : edges false (exec (.wrreg 0x8E 0x00) State.reset) = some (16, 16) := by decide
theorem test_RP9_burstrd :
    imageOf (exec .burstrd (withBytes [0x59, 0x59, 0x23, 0x31, 0x12, 0x07, 0x99, 0x00] State.reset)) =
      some (⟨0x59, 0x59, 0x23, 0x31, 0x12, 0x07, 0x99, 0x00⟩, true) := by decide
theorem test_RP10_burstwr :
    seen (exec (.burstwr ⟨0x00, 0x30, 0x10, 0x01, 0x01, 0x01, 0x24, 0x00⟩) State.reset) =
      some (0x00, 0x0C, 0x00) := by decide

/-- The wire commands, by the sessions of R171 to R177. -/
theorem test_cmdBurstRd :
    seen (exec .cmdBurstRd (withBytes [0x59, 0x59, 0x23, 0x31, 0x12, 0x07, 0x99, 0x41] State.reset)) =
      some (0x00, 0x14, 0x41) := by decide
theorem test_cmdBurstWr :
    edges false (exec (.cmdBurstWr ⟨0x00, 0x30, 0x10, 0x01, 0x01, 0x01, 0x24, 0x00⟩) State.reset) =
      some (72, 72) := by decide
theorem test_cmdClkRd : seen (exec (.cmdClkRd 2) (withBytes [0x23] State.reset)) = some (0x00, 0x14, 0x23) := by decide
theorem test_cmdClkWr : seen (exec (.cmdClkWr 7 0x80) State.reset) = some (0x00, 0x1C, 0x00) := by decide
theorem test_cmdRamRd : seen (exec (.cmdRamRd 31) (withBytes [0x01] State.reset)) = some (0x00, 0x14, 0x01) := by decide
theorem test_cmdRamWr : edges false (exec (.cmdRamWr 0 0x12) State.reset) = some (16, 16) := by decide
theorem test_cmdNomarkRead :
    seen (exec (.cmdNomark 0x01 0x00) (withBytes [0x5A] State.reset)) = some (0x00, 0x04, 0x5A) := by decide

/-- RQ-4, RQ-7: an illegal word is the fault ILL. -/
theorem test_RQ7_ill :
    seen (step (State.reset.withFetchWord 80 0x12000000000000000000)) = some (0x10, 0x00, 0x00) := by decide

/-- RS-3: a reset clears the error bits. -/
theorem test_RS3_reset : seen (step { inWrite with errDir := true, host := [.rst] }) = some (0x00, 0x00, 0x00) := by decide

/-- RS-1: the read port after reset, at the draw 0. -/
theorem test_RS1_readPort : (List.range 16).map (fun n => readPort (BitVec.ofNat 4 n) 0x00 State.reset) =
    [0x00, 0x00, 0x00, 0x00, 0x00, 0x00, 0x10, 0x00, 0x00, 0x00, 0x00, 0x00, 0x00, 0x00, 0x00, 0x00] := by decide

/-! ## The decoder (DEC vectors) -/

/-- SEC, MIN, HOUR, DFLAGS of an image with these bytes 0, 1, 2 and 7. -/
def decoded (b0 b1 b2 b7 : Byte) : List Byte :=
  let img : Bytes8 := ⟨b0, b1, b2, 0x00, 0x00, 0x00, 0x00, b7⟩
  [sec imageLayout img, minute imageLayout img, hour imageLayout img, dflags imageLayout img]

theorem test_DEC2 : decoded 0x59 0x59 0x23 0x00 = [59, 59, 23, 0x04] := by decide
theorem test_DEC4 : decoded 0x0A 0x00 0x00 0x00 = [10, 0, 0, 0x20] := by decide
theorem test_DEC5 : decoded 0xFF 0xFF 0xFF 0xFF = [85, 85, 45, 0x6F] := by decide
theorem test_DEC7 : decoded 0x00 0x00 0xA1 0x00 = [0, 0, 21, 0x06] := by decide
theorem test_DEC9 : decoded 0x00 0x00 0x24 0x00 = [0, 0, 24, 0x44] := by decide
theorem test_DEC10 : decoded 0x00 0x00 0x00 0x80 = [0, 0, 0, 0x08] := by decide
theorem test_DEC14 : decoded 0x00 0x80 0x40 0x00 = [0, 0, 0, 0x00] := by decide
theorem test_DEC19 : decoded 0x00 0x00 0x1A 0x00 = [0, 0, 20, 0x20] := by decide

/-! ## Witnesses: for each obligation with hypotheses, a state and operands that meet them all -/

/-- A ready block to which the host presents one word. -/
def presenting (p : Presented) (s : State) : State := { s with host := [.present p] }

/-- A block in the middle of a WRBYTE.REL, with a word presented. -/
def midByte : State :=
  { inWrite with busy := true, seq := [.setSCLK true, .hold .ckh, .setIODir .input], host := [.present (.req 0x40000000000000000000)] }

theorem witness_RequestWordLegality :
    let s := presenting (.req 0x90000000000000000000) State.reset
    ¬ (1 ≤ (0x90000000000000000000#80).toNat / 2 ^ 76 ∧ (0x90000000000000000000#80).toNat / 2 ^ 76 ≤ 8 ∧
        (0x90000000000000000000#80).toNat / 2 ^ 73 % 8 = 0) ∧
      ¬ (1 ≤ (0x0#80).toNat / 2 ^ 76) ∧ ¬ ((0x12000000000000000000#80).toNat / 2 ^ 73 % 8 = 0) ∧
      s.busy = false ∧ s.host = .present (.req 0x90000000000000000000) :: [] := by decide

theorem witness_RequestEncodingRoundTrip :
    encode (.wrbyte 0xA5 true) = .req (reqWord 0x3 true 0 (dOfByte 0xA5)) ∧
      (decode (.req 0x310000000000000000A5)).toOption = some (.wrbyte 0xA5 true) ∧
      ignoredFieldsZero (.req 0x310000000000000000A5) = true := ⟨rfl, by decide, by decide⟩

theorem witness_WireEncodingRoundTrip :
    (Instr.cmdClkRd 30).wellFormed = true ∧ encode (.cmdClkRd 30) = .wire (wireWord (cmdByte false 30 true) 0) ∧
      (decode (.wire 0xBD)).toOption = some (.cmdClkRd 30) ∧ ignoredFieldsZero (.wire 0xBD) = true :=
  ⟨by decide, rfl, by decide, by decide⟩

/-- RQ-1 and RQ-2: two words that differ in ignored fields only. -/
theorem witness_IgnoredFieldsDoNotMatter :
    let w : ReqWord := 0x10000000000000000000
    let w' : ReqWord := 0x1100FFFFFFFFFFFFFFFF
    w ≠ w' ∧ reqOp w = reqOp w' ∧ reqRsv w = reqRsv w' ∧ (reqOp w = 3#4 → reqRel w = reqRel w' ∧ reqV w = reqV w') ∧
      (reqOp w = 5#4 → reqA w = reqA w') ∧ (reqOp w = 6#4 → reqA w = reqA w' ∧ reqV w = reqV w') ∧
      (reqOp w = 8#4 → reqD w = reqD w') := by decide

/-- The same for RDREG, where `D` and `REL` are ignored and `A` is not. -/
theorem witness_IgnoredFieldsDoNotMatter_rdreg :
    let w : ReqWord := 0x50840000000000000000
    let w' : ReqWord := 0x518400000000000000FF
    w ≠ w' ∧ reqOp w = reqOp w' ∧ reqRsv w = reqRsv w' ∧ reqOp w = 5#4 ∧ reqA w = reqA w' := by decide

theorem witness_DecodedIsWellFormed : (decode (.wire 0x7F)).toOption = some (.cmdNomark 0x7F 0x00) := by decide

/-- The last index and byte each clause admits, and the first it does not. -/
theorem witness_AssemblerExpandsForms :
    ((30 : Nat) ≤ 30 ∧ (255 : Nat) < 256) ∧ (31 : Nat) ≤ 31 ∧ (30 : Nat) < 31 := by decide

theorem witness_StepRunsPresentedInstruction :
    let s := presenting (.req 0x310000000000000000A5) inWrite
    s.busy = false ∧ s.host = .present (.req 0x310000000000000000A5) :: [] ∧
      (decode (.req 0x310000000000000000A5)).toOption = some (.wrbyte 0xA5 true) := by decide

theorem witness_PlacedWordRunsNext :
    decodeTableWord 80 0x310000000000000000A5 = some (.wrbyte 0xA5 true) ∧ decodeTableWord 8 0x85 = some (.cmdClkRd 2) :=
  by decide

theorem witness_IdleBlockKeepsState :
    inWrite.busy = false ∧ inWrite.host = [] ∧ ({ inWrite with host := [.idle] } : State).host = .idle :: [] := by decide

theorem witness_PresentedRequestIsHeldWhileBusy :
    midByte.busy = true ∧ midByte.host = .present (.req 0x40000000000000000000) :: [] ∧
      (decode (.req 0x40000000000000000000)).toOption = some .rdbyte := by decide

/-- A BURSTWR seen after 100 of its operations is still running; a WRBYTE with no session open is not, it has faulted. -/
theorem witness_MidwayRequestEqualsWholeRequest :
    (∃ t, step { inWrite with host := [.presentMidway (.req 0x80000024010101103000) 100] } = .next t ∧ t.busy = true ∧
      resetNow t = false) ∧
    ∃ t, step { State.reset with host := [.presentMidway (.req 0x30000000000000000000) 3] } = .next t ∧
      t.busy = false := ⟨⟨_, rfl, by decide, by decide⟩, _, rfl, by decide⟩

/-- A BURSTRD seen in its final hold, with all its pad events done: the image is still the old one. -/
theorem witness_ImageIsOldWhileBusy :
    ∃ t, step { withBytes [1, 2, 3, 4, 5, 6, 7, 8] State.reset with
      host := [.presentMidway (.req 0x70000000000000000000) 1000] } = .next t ∧ t.busy = true ∧ t.rdata = 8 ∧
      t.img = zeroBytes ∧ (3 : BitVec 4) ≤ 3 ∧ (3 : BitVec 4) ≤ 15 :=
  ⟨_, rfl, by decide, by decide, by decide, by decide, by decide⟩

theorem witness_ResetAbortsRunningRequest : ({ midByte with host := [.rst] } : State).host = .rst :: [] := by decide

/-- A BEGIN cut at its first moment, after its first event, and in its final hold. -/
theorem witness_ResetCutsTraceAtAnyEvent :
    State.reset.busy = false ∧
      (decode (.req 0x10000000000000000000)).toOption = some .beginSession ∧
      ∃ t, exec .beginSession State.reset = .next t ∧ t.rspErr = false ∧
        t.trace = State.reset.trace ++ ([] ++ [.ce false, .sclkOe, .ioDir .output, .sclk false, .ce true, .hold .ceSu]) ∧
        t.trace = State.reset.trace ++ ([.ce false] ++ [.sclkOe, .ioDir .output, .sclk false, .ce true, .hold .ceSu]) ∧
        t.trace = State.reset.trace ++ ([.ce false, .sclkOe, .ioDir .output, .sclk false, .ce true, .hold .ceSu] ++ []) :=
  ⟨by decide, by decide, _, rfl, by decide, by decide, by decide, by decide⟩

/-- R234, R20: a reset in BEGIN's final hold finds all its events in the trace, and gives no response. -/
theorem test_resetInFinalHold :
    ∃ m t, step { State.reset with host := [.presentMidway (.req 0x10000000000000000000) 1000, .rst] } = .next m ∧
      m.busy = true ∧ m.rspValid = false ∧
      step m = .next t ∧ t.rspValid = false ∧ t.lines.ce = false ∧
      t.past = [[.ce false, .sclkOe, .ioDir .output, .sclk false, .ce true, .hold .ceSu]] :=
  ⟨_, _, rfl, by decide, by decide, rfl, by decide, by decide, by decide⟩

theorem witness_WrbyteSendsByte :
    State.reset.lines.ce = false ∧ (inTurned.lines.ce = true ∧ inTurned.lines.ioDir = .input) ∧
      (inWrite.lines.ce = true ∧ inWrite.lines.ioDir = .output) := by decide

theorem witness_RdbyteReceivesByte :
    State.reset.lines.ce = false ∧ (inWrite.lines.ce = true ∧ inWrite.lines.ioDir = .output) ∧
      (inTurned.lines.ce = true ∧ inTurned.lines.ioDir = .input) := by decide

/-- BD-8: a device that presents 0x23. -/
theorem witness_RdbyteReadsLeastSignificantFirst :
    let s := withBytes [0x23, 0xFF] inTurned
    s.lines.ce = true ∧ s.lines.ioDir = .input ∧ s.device = bitsOf 0x23 ++ bitsOf 0xFF := by decide

/-- BD-11: a device that loops 0x01 back. -/
theorem witness_LoopbackReturnsWrittenByte :
    let s := withBytes [0x01] inWrite
    s.lines.ce = true ∧ s.lines.ioDir = .output ∧ s.device = bitsOf 0x01 ++ [] := by decide

theorem witness_PhaseTransitions :
    phase State.reset.lines = .idle ∧ phase inWrite.lines = .write ∧ phase inTurned.lines = .turned ∧
      phase (atLines true false true .input true).lines = .read := by decide

/-- P1: a device that answers a BURSTRD. -/
theorem witness_BurstrdFillsImageInOrder :
    (withBytes [0x45, 0x30, 0x12, 0x15, 0x08, 0x03, 0x24, 0x00] State.reset).device =
      bitsOf8 ⟨0x45, 0x30, 0x12, 0x15, 0x08, 0x03, 0x24, 0x00⟩ ++ [] := by decide

theorem witness_CompositesEndIdleWithoutFault :
    (∃ a, Instr.rdreg 0xFF = .rdreg a) ∧ (∃ a v, Instr.wrreg 0x00 0xFF = .wrreg a v) ∧
      (∃ b, Instr.burstwr zeroBytes = .burstwr b) := ⟨⟨_, rfl⟩, ⟨_, _, rfl⟩, _, rfl⟩

/-- Clock registers 0 and 30, RAM registers 0 and 31, and the addresses that send them. -/
theorem witness_WireCommands :
    ((0 : BitVec 5) ≠ 31#5 ∧ (30 : BitVec 5) ≠ 31#5) ∧
      (cmdMark 0x80 = true ∧ cmdRc 0x80 = false ∧ cmdReg 0x80 = 0) ∧
      (cmdMark 0xBD = true ∧ cmdRc 0xBD = false ∧ cmdReg 0xBD = 30) ∧
      (cmdMark 0xC0 = true ∧ cmdRc 0xC0 = true ∧ cmdReg 0xC0 = 0) ∧
      (cmdMark 0xFF = true ∧ cmdRc 0xFF = true ∧ cmdReg 0xFF = 31) := by decide

/-- The two kinds of CMD_NOMARK byte, and an address that sends each. -/
theorem witness_NomarkCommand :
    (BitVec.getLsbD (0x7F : BitVec 7) 0 = true ∧ nomarkByte 0x7F = cmdRd 0x7E) ∧
      (BitVec.getLsbD (0x00 : BitVec 7) 0 = false ∧ nomarkByte 0x00 = cmdWr 0x01) ∧
      cmdMark 0x7E = false ∧ cmdMark 0x01 = false := by decide

theorem witness_BurstCommands : ((0xBE : Byte) = 0xBE ∨ (0xBE : Byte) = 0xBF) ∧ ((0xBF : Byte) = 0xBE ∨ (0xBF : Byte) = 0xBF) :=
  by decide

/-- BD-10c: RDBYTE before the release. RQ-5: a word that spells no request. -/
theorem witness_FaultIsPrecise :
    (∃ t, exec .rdbyte inWrite = .next t ∧ t.rspErr = true) ∧
      ∀ i, decode (.req 0x90000000000000000000) ≠ .ok i := by
  refine ⟨⟨_, rfl, by decide⟩, fun i h => ?_⟩
  have hn : (decode (.req 0x90000000000000000000)).toOption = none := by decide
  rw [h] at hn
  cases hn

/-- A step without a reset and one with, from a state with an error recorded. -/
theorem witness_ErrorBitsAreSticky :
    (∃ t, step (presenting (.req 0x20000000000000000000) { inWrite with errDir := true }) = .next t ∧
      resetNow (presenting (.req 0x20000000000000000000) { inWrite with errDir := true }) = false) ∧
    ∃ t, step { inWrite with errDir := true, host := [.rst] } = .next t ∧
      resetNow { inWrite with errDir := true, host := [.rst] } = true := ⟨⟨_, rfl, by decide⟩, _, rfl, by decide⟩

theorem witness_OnlyBurstrdWritesImage :
    Instr.rdbyte ≠ .burstrd ∧ ∃ t, exec .rdbyte (withBytes [0x23] inTurned) = .next t := ⟨by decide, _, rfl⟩

theorem witness_OnlyReadsWriteRdata :
    (∃ b, Instr.cmdBurstWr zeroBytes = .cmdBurstWr b) ∧ ∃ t, exec (.cmdBurstWr zeroBytes) inWrite = .next t :=
  ⟨⟨_, rfl⟩, _, rfl⟩

/-- A step that runs an END, from a state with the clock driven and a valid image. -/
theorem witness_ClockEnableAndImageValidStay :
    let s := presenting (.req 0x20000000000000000000) { inWrite with imgValid := true }
    resetNow s = false ∧ s.lines.sclkOe = true ∧ s.imgValid = true ∧ ∃ t, step s = .next t :=
  ⟨by decide, by decide, by decide, _, rfl⟩

theorem witness_TraceOnlyGrows :
    (resetNow (presenting (.req 0x20000000000000000000) inWrite) = false ∧
      ∃ t, step (presenting (.req 0x20000000000000000000) inWrite) = .next t) ∧
    resetNow { inWrite with host := [.rst] } = true ∧ ∃ t, step { inWrite with host := [.rst] } = .next t :=
  ⟨⟨by decide, _, rfl⟩, by decide, _, rfl⟩

/-- A block that has run one BEGIN since reset, with a WRBYTE.REL presented. -/
def afterBegin : State :=
  { inWrite with trace := beginTrace false, host := [.present (.req 0x31000000000000000085)] }

theorem witness_LineInvariantsKept : LinesInv afterBegin ∧ ∃ t, step afterBegin = .next t :=
  ⟨⟨fun _ => rfl, by unfold LinesOk; decide⟩, _, rfl⟩

theorem witness_TraceShowsLinesKept : TraceShowsLines afterBegin ∧ ∃ t, step afterBegin = .next t :=
  ⟨by unfold TraceShowsLines; decide, _, rfl⟩

theorem witness_WireDisciplineKept : WireInv afterBegin ∧ ∃ t, step afterBegin = .next t :=
  ⟨⟨⟨fun _ => rfl, by unfold LinesOk; decide⟩, by unfold TraceShowsLines; decide, by decide, by decide⟩, _, rfl⟩

/-- DEC-2 and DEC-9: fields in range, and hours with tens 2 and units 4. -/
theorem witness_ValidFieldsDecodeInRange :
    let img : Bytes8 := ⟨0x59, 0x59, 0x23, 0, 0, 0, 0, 0⟩
    let img' : Bytes8 := ⟨0x59, 0x59, 0x24, 0, 0, 0, 0, 0⟩
    (img.b0.toNat / 16 % 8 ≤ 5 ∧ img.b0.toNat % 16 ≤ 9) ∧ (img.b1.toNat / 16 % 8 ≤ 5 ∧ img.b1.toNat % 16 ≤ 9) ∧
      (img.b2.toNat / 16 % 4 = 2 ∧ img.b2.toNat % 16 ≤ 3) ∧
      (img'.b2.toNat / 16 % 4 = 2 ∧ 4 ≤ img'.b2.toNat % 16 ∧ img'.b2.toNat % 16 ≤ 9) := by decide

/-- The largest value of each field, with and without the clock-halt flag. -/
theorem witness_BcdRoundTrip :
    let img : Bytes8 := ⟨0xD9, 0x59, 0x23, 0, 0, 0, 0, 0⟩
    (59 < 60 ∧ 1 ≤ 1 ∧ img.b0.toNat = 59 / 10 * 16 + 59 % 10 + 1 * 128) ∧
      img.b1.toNat = 59 / 10 * 16 + 59 % 10 ∧ (23 < 24 ∧ img.b2.toNat = 23 / 10 * 16 + 23 % 10) := by decide

theorem witness_TwelveHourModeIsNotDecoded :
    bitOf 0x81 5 = false ∧ (⟨0, 0, 0xA1, 0, 0, 0, 0, 0⟩ : Bytes8).b2 = 0xA1 ∧
      (⟨0, 0, 0x92, 0, 0, 0, 0, 0⟩ : Bytes8).b2 = 0x92 := by decide

theorem witness_ReadPortMap : inWrite.busy = false := by decide

end Sys2Proof.Tests
end

section
/-! PROOFS. The state family (10_state.md): the values after reset (R63) and the phase table of the primitives (R54). -/

namespace Sys2Proof.Machine

/-! ## The zero image: what every layout decodes from it -/

@[simp] theorem byteAt_zeroBytes (k : Fin 8) : byteAt zeroBytes k = 0x00 := by
  fin_cases k <;> rfl

@[simp] theorem fieldValue_zeroBytes (f : BitField) : fieldValue f zeroBytes = 0 := by
  simp [fieldValue]

@[simp] theorem fieldFlag_zeroBytes (f : BitField) : fieldFlag f zeroBytes = false := by
  simp [fieldFlag]

@[simp] theorem decimal_zeroBytes (tens units : BitField) : decimal tens units zeroBytes = 0 := by
  simp [decimal]

@[simp] theorem sec_zeroBytes (L : ImageLayout) : sec L zeroBytes = 0x00 := by
  simp [sec]

@[simp] theorem minute_zeroBytes (L : ImageLayout) : minute L zeroBytes = 0x00 := by
  simp [minute]

@[simp] theorem hour_zeroBytes (L : ImageLayout) : hour L zeroBytes = 0x00 := by
  simp [hour]

@[simp] theorem softZero_zeroBytes : softZero zeroBytes = true := by
  simp [softZero]

@[simp] theorem softBcd_zeroBytes (L : ImageLayout) : softBcd L zeroBytes = false := by
  simp [softBcd]

@[simp] theorem softRange_zeroBytes (L : ImageLayout) : softRange L zeroBytes = false := by
  simp [softRange]

/-- Of all the flags only `SOFT_ZERO` is set (R188, R189). -/
@[simp] theorem dflags_zeroBytes (L : ImageLayout) : dflags L zeroBytes = 0x10 := by
  simp only [dflags, fieldFlag_zeroBytes, softZero_zeroBytes, softBcd_zeroBytes, softRange_zeroBytes]
  rfl

/-- Settles O18: the stored elements are read off the reset state, and the derived ones follow from its image being the
zero image. -/
theorem resetValues : Obligations.ResetValues :=
  ⟨rfl, rfl, rfl, rfl, rfl, ⟨rfl, rfl, rfl⟩, rfl, rfl, rfl,
    sec_zeroBytes _, minute_zeroBytes _, hour_zeroBytes _, dflags_zeroBytes _, rfl⟩

/-! ## The phases by the lines they stand for (R53) -/

theorem phase_eq_idle_iff {l : Lines} : phase l = .idle ↔ l.ce = false := by
  unfold phase
  split <;> simp_all

theorem phase_eq_write_iff {l : Lines} :
    phase l = .write ↔ l.ce = true ∧ l.ioDir = .output ∧ l.sclk = false := by
  unfold phase
  split <;> simp_all

theorem phase_eq_turned_iff {l : Lines} :
    phase l = .turned ↔ l.ce = true ∧ l.ioDir = .input ∧ l.sclk = true := by
  unfold phase
  split <;> simp_all

theorem phase_eq_read_iff {l : Lines} :
    phase l = .read ↔ l.ce = true ∧ l.ioDir = .input ∧ l.sclk = false := by
  unfold phase
  split <;> simp_all

/-- The two phases in which the block listens: an open session with the data line released. -/
theorem phase_turned_or_read_iff {l : Lines} :
    phase l = .turned ∨ phase l = .read ↔ l.ce = true ∧ l.ioDir = .input := by
  rw [phase_eq_turned_iff, phase_eq_read_iff]
  cases l.sclk <;> simp

/-! ## The checks of WRBYTE and RDBYTE that fail (R130, R136, R202) -/

theorem sequenceOf_wrbyte_of_fault {v : Byte} {rel : Bool} {s : State} {k : FaultKind}
    (h : busFault .output s.lines = some k) : sequenceOf (.wrbyte v rel) s = .error k := by
  simp only [sequenceOf, wrbyteSeq, h]

theorem sequenceOf_rdbyte_of_fault {s : State} {k : FaultKind}
    (h : busFault .input s.lines = some k) : sequenceOf .rdbyte s = .error k := by
  simp only [sequenceOf, rdbyteSeq, h]

theorem exec_wrbyte_of_closed {v : Byte} {rel : Bool} {s : State} (h : s.lines.ce = false) :
    exec (.wrbyte v rel) s = .next (afterFault .nosess s) :=
  exec_of_error (sequenceOf_wrbyte_of_fault (busFault_of_closed h))

theorem exec_wrbyte_of_input {v : Byte} {rel : Bool} {s : State} (h : s.lines.ce = true)
    (hd : s.lines.ioDir = .input) : exec (.wrbyte v rel) s = .next (afterFault .dir s) :=
  exec_of_error (sequenceOf_wrbyte_of_fault (busFault_of_wrong h (by simp [hd])))

theorem exec_rdbyte_of_closed {s : State} (h : s.lines.ce = false) :
    exec .rdbyte s = .next (afterFault .nosess s) :=
  exec_of_error (sequenceOf_rdbyte_of_fault (busFault_of_closed h))

theorem exec_rdbyte_of_output {s : State} (h : s.lines.ce = true) (hd : s.lines.ioDir = .output) :
    exec .rdbyte s = .next (afterFault .dir s) :=
  exec_of_error (sequenceOf_rdbyte_of_fault (busFault_of_wrong h (by simp [hd])))

/-! ## The columns of the phase table (R54) -/

@[simp] theorem finish_rspErr (s : State) : (finish s).rspErr = false := rfl

theorem exec_beginSession_phase (s : State) :
    ∃ t, exec .beginSession s = .next t ∧ phase t.lines = .write :=
  ⟨_, exec_of_ok rfl, by rw [finish_lines, runOps_beginOps]; rfl⟩

theorem exec_endSession_phase (s : State) :
    ∃ t, exec .endSession s = .next t ∧ phase t.lines = .idle :=
  ⟨_, exec_of_ok rfl, by rw [finish_lines, runOps_endOps]; rfl⟩

/-- A released byte leaves the clock high and the data line an input (R131); any other leaves the clock low and the line
an output (R130). -/
theorem exec_wrbyte_phase (v : Byte) (rel : Bool) {s : State} (h : s.lines.ce = true)
    (hd : s.lines.ioDir = .output) :
    ∃ t, exec (.wrbyte v rel) s = .next t ∧ t.rspErr = false ∧
      phase t.lines = if rel then .turned else .write := by
  refine ⟨_, exec_of_ok (sequenceOf_wrbyte h hd), finish_rspErr _, ?_⟩
  rw [finish_lines, runOps_wrbyteOps, moved_lines]
  cases rel with
  | false => exact phase_eq_write_iff.2 ⟨h, hd, rfl⟩
  | true => exact phase_eq_turned_iff.2 ⟨h, rfl, rfl⟩

theorem exec_rdbyte_phase {s : State} (h : s.lines.ce = true) (hd : s.lines.ioDir = .input) :
    ∃ t, exec .rdbyte s = .next t ∧ t.rspErr = false ∧ phase t.lines = .read := by
  refine ⟨_, exec_of_ok (sequenceOf_rdbyte h hd), finish_rspErr _, ?_⟩
  obtain ⟨x, -, hx⟩ := runOps_rdbyteOps s
  rw [finish_lines, hx]
  exact phase_eq_read_iff.2 ⟨h, hd, rfl⟩

/-- Settles O26, column by column of R54: each phase is read as what it says of CE and IO_DIR, which is what the checks
of WRBYTE and RDBYTE look at. -/
theorem phaseTransitions : Obligations.PhaseTransitions := by
  intro s
  refine ⟨exec_beginSession_phase s, exec_endSession_phase s, fun v rel => ⟨fun hidle => ?_, fun hwrite => ?_,
    fun hin => ?_⟩, fun hidle => ?_, fun hwrite => ?_, fun hin => ?_⟩
  · exact exec_wrbyte_of_closed (phase_eq_idle_iff.1 hidle)
  · obtain ⟨hce, hout, -⟩ := phase_eq_write_iff.1 hwrite
    exact exec_wrbyte_phase v rel hce hout
  · obtain ⟨hce, hinput⟩ := phase_turned_or_read_iff.1 hin
    exact exec_wrbyte_of_input hce hinput
  · exact exec_rdbyte_of_closed (phase_eq_idle_iff.1 hidle)
  · obtain ⟨hce, hout, -⟩ := phase_eq_write_iff.1 hwrite
    exact exec_rdbyte_of_output hce hout
  · obtain ⟨hce, hinput⟩ := phase_turned_or_read_iff.1 hin
    exact exec_rdbyte_phase hce hinput

end Sys2Proof.Machine
end

section
/-! PROOFS. The encoding family (30_encoding.md): which request words are legal and what they decode to (R93 to R98), the
classes of the command bytes (R102, R103), and the assembler's forms (R108, R111). -/

namespace Sys2Proof.Machine

/-! ## What a legal request word decodes to (R91 to R97) -/

/-- `OP` and the fields it uses spell the request `i` (R91, R92); `RSV` is left out. No request
word spells a wire command. -/
def Spells (w : ReqWord) : Instr → Prop
  | .beginSession => reqOp w = 1#4
  | .endSession => reqOp w = 2#4
  | .wrbyte v rel => reqOp w = 3#4 ∧ reqV w = v ∧ reqRel w = rel
  | .rdbyte => reqOp w = 4#4
  | .rdreg a => reqOp w = 5#4 ∧ reqA w = a
  | .wrreg a v => reqOp w = 6#4 ∧ reqA w = a ∧ reqV w = v
  | .burstrd => reqOp w = 7#4
  | .burstwr b => reqOp w = 8#4 ∧ reqD w = dOfBytes b
  | .cmdBurstRd | .cmdBurstWr _ | .cmdClkRd _ | .cmdClkWr _ _ | .cmdRamRd _ | .cmdRamWr _ _ | .cmdNomark _ _ => False

/-- The decoder accepts exactly the words with `RSV` 0 that spell a request, and gives that request. -/
theorem decode_req_eq_ok_iff {w : ReqWord} {i : Instr} :
    decode (.req w) = .ok i ↔ reqRsv w = 0#3 ∧ Spells w i := by
  have hop (n : BitVec 4) (h : (reqOp w).toNat = n.toNat) : reqOp w = n := BitVec.eq_of_toNat_eq h
  constructor
  · intro h
    simp only [decode, decodeRequest, bne_iff_ne, ne_eq, ite_not] at h
    split at h
    · next hrsv =>
      refine ⟨hrsv, ?_⟩
      split at h <;> cases h
      · next h1 => exact hop 1 h1
      · next h2 => exact hop 2 h2
      · next h3 => exact ⟨hop 3 h3, rfl, rfl⟩
      · next h4 => exact hop 4 h4
      · next h5 => exact ⟨hop 5 h5, rfl⟩
      · next h6 => exact ⟨hop 6 h6, rfl, rfl⟩
      · next h7 => exact hop 7 h7
      · next h8 => exact ⟨hop 8 h8, (dOfBytes_bytesOfD _).symm⟩
    · cases h
  · rintro ⟨hrsv, hi⟩
    cases i <;> simp_all [Spells, decode, decodeRequest]

/-- An illegal word's reason depends on `OP` and `RSV` alone (R93, R94). -/
theorem decode_req_eq_error {w : ReqWord} {e : DecodeError} (h : decode (.req w) = .error e) :
    e = if reqRsv w = 0#3 then .reservedOpcode (reqOp w) else .reservedBits (reqRsv w) := by
  simp only [decode, decodeRequest, bne_iff_ne, ne_eq, ite_not] at h
  split at h
  · next hrsv =>
    rw [if_pos hrsv]
    split at h <;> cases h
    rfl
  · next hrsv =>
    rw [if_neg hrsv]
    cases h
    rfl

/-- Every request is spelled by the word the encoder makes for it, which has `RSV` 0. -/
theorem encode_req_spells {i : Instr} {w : ReqWord} (h : encode i = .req w) : reqRsv w = 0#3 ∧ Spells w i := by
  cases i <;> simp only [encode, Presented.req.injEq, reduceCtorEq] at h <;> subst h <;> simp [Spells]

/-- A word whose ignored fields are 0 is the encoding of the request it spells. -/
theorem encode_of_spells {i : Instr} {w : ReqWord} (hrsv : reqRsv w = 0#3) (hi : Spells w i)
    (hz : ignoredFieldsZero (.req w) = true) : encode i = .req w := by
  rw [← reqWord_fields hrsv]
  cases i <;> simp_all [Spells, ignoredFieldsZero, encode]

/-- Settles O2: both directions go through what the decoder accepts, a word with `RSV` 0 that spells the request. -/
theorem requestEncodingRoundTrip : Obligations.RequestEncodingRoundTrip := by
  refine ⟨fun i w h => decode_req_eq_ok_iff.2 (encode_req_spells h), fun w i h hz => ?_⟩
  obtain ⟨hrsv, hi⟩ := decode_req_eq_ok_iff.1 h
  exact encode_of_spells hrsv hi hz

/-! ## Legality (R93, R94) and ignored fields (R95) -/

theorem exists_spells_iff {w : ReqWord} : (∃ i, Spells w i) ↔ 1 ≤ (reqOp w).toNat ∧ (reqOp w).toNat ≤ 8 := by
  constructor
  · rintro ⟨i, hi⟩
    cases i <;> simp_all [Spells]
  · rintro ⟨h1, h8⟩
    have hop (n : BitVec 4) (h : (reqOp w).toNat = n.toNat) : reqOp w = n := BitVec.eq_of_toNat_eq h
    generalize h : (reqOp w).toNat = n at h1 h8
    interval_cases n
    · exact ⟨.beginSession, hop 1 h⟩
    · exact ⟨.endSession, hop 2 h⟩
    · exact ⟨.wrbyte (reqV w) (reqRel w), hop 3 h, rfl, rfl⟩
    · exact ⟨.rdbyte, hop 4 h⟩
    · exact ⟨.rdreg (reqA w), hop 5 h, rfl⟩
    · exact ⟨.wrreg (reqA w) (reqV w), hop 6 h, rfl, rfl⟩
    · exact ⟨.burstrd, hop 7 h⟩
    · exact ⟨.burstwr (bytesOfD (reqD w)), hop 8 h, (dOfBytes_bytesOfD _).symm⟩

theorem decode_req_legal_iff {w : ReqWord} : (∃ i, decode (.req w) = .ok i) ↔
    1 ≤ w.toNat / 2 ^ 76 ∧ w.toNat / 2 ^ 76 ≤ 8 ∧ w.toNat / 2 ^ 73 % 8 = 0 := by
  simp only [decode_req_eq_ok_iff, exists_and_left, exists_spells_iff, ← BitVec.toNat_inj, reqRsv_toNat, reqOp_toNat]
  exact and_comm.trans and_assoc

/-- A ready block answers a word that decodes to no request with the fault ILL (R201, R203). -/
theorem step_of_decode_error {s : State} {p : Presented} {e : DecodeError} {rest : List HostAction}
    (hready : s.busy = false) (hhost : s.host = .present p :: rest) (he : decode p = .error e) :
    step s = .next (afterFault .ill { s with host := rest }) := by
  rw [step_of_ready hready, nextAction_present hhost, takeRequest, he, raiseFault_eq]

/-- Settles O1: a word outside the legal range decodes to no request, which a ready block answers with ILL. -/
theorem requestWordLegality : Obligations.RequestWordLegality := by
  refine fun w => ⟨decode_req_legal_iff, fun s rest hbad hready hhost => ?_⟩
  cases hd : decode (.req w) with
  | ok i => exact absurd (decode_req_legal_iff.1 ⟨i, hd⟩) hbad
  | error e => exact step_of_decode_error hready hhost hd

/-- Settles O4: agreeing in the used fields, the two words spell the same requests; and if neither is legal, the reason is
the same. -/
theorem ignoredFieldsDoNotMatter : Obligations.IgnoredFieldsDoNotMatter := by
  intro w w' hop hrsv hwrbyte hrdreg hwrreg hburstwr
  have hspells : ∀ i, Spells w i ↔ Spells w' i := by
    intro i
    cases i with
    | wrbyte v rel =>
      rw [Spells, Spells, ← hop]
      exact and_congr_right fun h => by rw [(hwrbyte h).1, (hwrbyte h).2]
    | rdreg a =>
      rw [Spells, Spells, ← hop]
      exact and_congr_right fun h => by rw [hrdreg h]
    | wrreg a v =>
      rw [Spells, Spells, ← hop]
      exact and_congr_right fun h => by rw [(hwrreg h).1, (hwrreg h).2]
    | burstwr b =>
      rw [Spells, Spells, ← hop]
      exact and_congr_right fun h => by rw [hburstwr h]
    | _ => simp only [Spells, hop]
  have hok : ∀ i, decode (.req w) = .ok i ↔ decode (.req w') = .ok i := fun i => by
    rw [decode_req_eq_ok_iff, decode_req_eq_ok_iff, hrsv, hspells]
  cases hd : decode (.req w) with
  | ok i => exact ((hok i).1 hd).symm
  | error e =>
    cases hd' : decode (.req w') with
    | ok i => exact absurd ((hok i).2 hd') (by simp [hd])
    | error e' => rw [decode_req_eq_error hd, decode_req_eq_error hd', hop, hrsv]

/-! ## The command classes (R102, R103) -/

/-- A byte without the mark bit is one that no row before the last matches. -/
theorem unmarked_iff (v : Byte) : v &&& 0x80 = 0x00 ↔
    ¬ (v &&& 0xC1 = 0x81 ∨ v &&& 0xC1 = 0x80 ∨ v &&& 0xC1 = 0xC1 ∨ v &&& 0xC1 = 0xC0) := by
  revert v
  decide

theorem matchesByte_eq_decide (r : CmdRow) (v : Byte) : r.matchesByte v = decide (v &&& r.mask = r.bits) := rfl

/-- The rows of R102 tried in order. The last needs no test (`unmarked_iff`). -/
theorem classify_eq (v : Byte) : classify v =
    if v = 0xBF then .burstRd else if v = 0xBE then .burstWr
    else if v &&& 0xC1 = 0x81 then .clkRd else if v &&& 0xC1 = 0x80 then .clkWr
    else if v &&& 0xC1 = 0xC1 then .ramRd else if v &&& 0xC1 = 0xC0 then .ramWr else .nomark := by
  have hfull : v &&& 0xFF = v := BitVec.and_allOnes
  simp only [classify, cmdRows, matchesByte_eq_decide, List.find?, hfull, unmarked_iff]
  split_ifs <;> simp_all

/-- Settles O6: with the rows as a chain of tests and the last row as what the others leave, each class is its own
branch; the sizes are counted over the 256 bytes. -/
theorem commandClassesPartitionBytes : Obligations.CommandClassesPartitionBytes := by
  refine ⟨fun v => ?_, by decide +kernel⟩
  rw [classify_eq, unmarked_iff]
  split_ifs <;> simp_all

/-! ## The assembler (R108, R111) -/

theorem asmByte_of_lt {n : Nat} (h : n < 256) : asmByte n = .ok (BitVec.ofNat 8 n) := if_pos h

theorem asmByte_of_ge {n : Nat} (h : ¬ n < 256) : asmByte n = .error (.byteOutOfRange n) := if_neg h

theorem bind_asmByte_of_lt {α : Type} {n : Nat} (h : n < 256) (f : Byte → Except AsmError α) :
    (asmByte n >>= f) = f (BitVec.ofNat 8 n) := by
  rw [asmByte_of_lt h]
  rfl

theorem asmIndex_of_le {last k : Nat} (h : k ≤ last) : asmIndex last k = .ok k := if_pos h

theorem asmIndex_of_gt {last k : Nat} (h : last < k) : asmIndex last k = .error (.indexOutOfRange k) :=
  if_neg (Nat.not_le.2 h)

/-- Settles O10: an index in range gives an address below 256, so no later check of the same line fails. -/
theorem assemblerExpandsForms : Obligations.AssemblerExpandsForms := by
  have hclk {k : Nat} (hk : k ≤ 30) : 0x80 + 2 * k < 256 := by omega
  have hram {k : Nat} (hk : k ≤ 31) : 0xC0 + 2 * k < 256 := by omega
  refine ⟨fun v rel => ?_, fun k hk => ?_, fun k v hk hv => ?_, fun k hk => ?_, fun k v hk hv => ?_, fun k hk => ?_,
    fun bs => rfl, rfl, rfl⟩
  · split
    · next hv => rw [assemble, asmByte_of_lt hv]; rfl
    · next hv => rw [assemble, asmByte_of_ge hv]; rfl
  · rw [assemble, asmIndex_of_le hk]
    exact bind_asmByte_of_lt (hclk hk) _
  · rw [assemble, asmIndex_of_le hk, asmByte_of_lt hv]
    exact bind_asmByte_of_lt (hclk hk) _
  · rw [assemble, asmIndex_of_le hk]
    exact bind_asmByte_of_lt (hram hk) _
  · rw [assemble, asmIndex_of_le hk, asmByte_of_lt hv]
    exact bind_asmByte_of_lt (hram hk) _
  · rw [assemble, asmIndex_of_gt hk]
    rfl

end Sys2Proof.Machine
end

section
/-! PROOFS. The bus driver family (40_bus_driver.md): the whole next state of BEGIN, END, WRBYTE and RDBYTE (R121 to R137),
and the loopback of a released byte (R141). -/

namespace Sys2Proof.Machine

/-! ## What a completed request leaves, by what its operations did -/

theorem finish_moved (l : Lines) (t : PadTrace) (s : State) : finish (moved l t s) = afterRequest l t s := rfl

/-- The operations of an RDBYTE leave a byte in RDATA and in the shift register, and use up eight answers. -/
theorem finish_readByte (l : Lines) (t : PadTrace) (x : Byte) (s : State) :
    finish { moved l t s with rdata := x, shift := x, device := s.device.drop 8 } = afterRead l t x s := rfl

/-! ## The traces, written out as the rules list them -/

/-- The hold of R122 is the only event that depends on CE at entry. -/
theorem beginTrace_eq_ite (ceWas : Bool) : beginTrace ceWas =
    if ceWas then [.ce false, .hold .ceOff, .sclkOe, .ioDir .output, .sclk false, .ce true, .hold .ceSu]
    else [.ce false, .sclkOe, .ioDir .output, .sclk false, .ce true, .hold .ceSu] := by
  cases ceWas <;> rfl

/-- The last bit of a released byte is the only one that ends without a falling clock edge (R131). -/
theorem wrbyteTrace_eq_flatMap (v : Byte) (rel : Bool) : wrbyteTrace v rel =
    indices8.flatMap fun i =>
      [.io (v.getLsbD i), .hold .dsu, .sclk true, .hold .ckh] ++
      if rel = true ∧ i = 7 then [.ioDir .input] else [.sclk false, .hold .ckl] := by
  refine congrArg (indices8.flatMap ·) (funext fun i => ?_)
  simp only [wrbitTrace, bitOf, Bool.and_eq_true, beq_iff_eq]

/-! ## The primitives whose checks pass -/

theorem exec_beginSession (s : State) : exec .beginSession s = .next (afterRequest
    { ce := true, sclk := false, sclkOe := true, ioDir := .output, ioOut := s.lines.ioOut }
    (beginTrace s.lines.ce) s) := by
  rw [exec_of_ok (ops := beginOps s.lines.ce) rfl, runOps_beginOps, finish_moved]

theorem exec_endSession (s : State) :
    exec .endSession s = .next (afterRequest { s.lines with ce := false } endTrace s) := by
  rw [exec_of_ok (ops := endOps) rfl, runOps_endOps, finish_moved]

theorem exec_wrbyte_of_output (v : Byte) (rel : Bool) {s : State} (h : s.lines.ce = true)
    (hd : s.lines.ioDir = .output) : exec (.wrbyte v rel) s = .next (afterRequest
      { s.lines with sclk := rel, ioDir := if rel then .input else .output, ioOut := bitOf v 7 }
      (wrbyteTrace v rel) s) := by
  rw [exec_of_ok (sequenceOf_wrbyte h hd), runOps_wrbyteOps, finish_moved, hd]

theorem exec_rdbyte_of_input {s : State} (h : s.lines.ce = true) (hd : s.lines.ioDir = .input) :
    ∃ x : Byte, SampledByte s [] x ∧
      exec .rdbyte s = .next (afterRead { s.lines with sclk := false } (rdbyteTrace x) x s) := by
  obtain ⟨x, hx, hops⟩ := runOps_rdbyteOps s
  exact ⟨x, hx, by rw [exec_of_ok (sequenceOf_rdbyte h hd), hops, finish_readByte]⟩

/-! ## The obligations -/

/-- Settles O19: the checks of BEGIN cannot fail, and its operations move the lines along `beginTrace`. -/
theorem beginOpensSession : Obligations.BeginOpensSession := by
  intro s
  rw [exec_beginSession, beginTrace_eq_ite]

/-- Settles O20: END's operations move CE alone, along `endTrace`. -/
theorem endClosesSession : Obligations.EndClosesSession := exec_endSession

/-- Settles O21, case by case of the checks; with both passed, the events are those of `wrbyteTrace` bit by bit. -/
theorem wrbyteSendsByte : Obligations.WrbyteSendsByte := by
  refine fun v rel s => ⟨exec_wrbyte_of_closed, exec_wrbyte_of_input, fun hopen hout => ?_⟩
  rw [exec_wrbyte_of_output v rel hopen hout, wrbyteTrace_eq_flatMap]
  rfl

/-- Settles O22, case by case of the checks; with both passed, the byte is the one `runOps_rdbyteOps` assembles. -/
theorem rdbyteReceivesByte : Obligations.RdbyteReceivesByte :=
  fun _ => ⟨exec_rdbyte_of_closed, exec_rdbyte_of_output, exec_rdbyte_of_input⟩

/-- Settles O24: the released WRBYTE leaves the line an input and uses up no answer, so the RDBYTE samples the bits of
`v`, and no other byte has them. -/
theorem loopbackReturnsWrittenByte : Obligations.LoopbackReturnsWrittenByte := by
  intro s v rest hopen hout hdevice
  have hwrite := exec_wrbyte_of_output v true hopen hout
  obtain ⟨x, hx, hread⟩ := exec_rdbyte_of_input (s := afterRequest
    { s.lines with sclk := true, ioDir := .input, ioOut := bitOf v 7 } (wrbyteTrace v true) s) hopen rfl
  exact ⟨_, _, hwrite, hread, sampledByte_scripted hx hdevice⟩

end Sys2Proof.Machine
end

section
/-! PROOFS. The register protocol family (41_register_protocol.md): the command byte of an address (R151), the whole next
state of RDREG, WRREG, BURSTRD and BURSTWR (R152 to R167), that a composite is its primitives run one after the other (R150,
R154), and that a BURSTRD is one session with its command first (R161, R164). -/

namespace Sys2Proof.Machine

/-! ## The command byte of an address (R151) -/

theorem bitOf_or (a m : Byte) (i : Fin 8) : bitOf (a ||| m) i = (bitOf a i || bitOf m i) := BitVec.getLsbD_or

theorem bitOf_and (a m : Byte) (i : Fin 8) : bitOf (a &&& m) i = (bitOf a i && bitOf m i) := BitVec.getLsbD_and

/-- The mask of a read command sets bit 0 alone. -/
theorem bitOf_readMask : ∀ i : Fin 8, bitOf 0x01 i = decide (i = 0) := by decide

/-- The mask of a write command clears bit 0 alone. -/
theorem bitOf_writeMask : ∀ i : Fin 8, bitOf 0xFE i = decide (i ≠ 0) := by decide

theorem bitOf_cmdRd (a : Byte) (i : Fin 8) : bitOf (cmdRd a) i = if i = 0 then true else bitOf a i := by
  rw [cmdRd, bitOf_or, bitOf_readMask]
  split <;> simp [*]

theorem bitOf_cmdWr (a : Byte) (i : Fin 8) : bitOf (cmdWr a) i = if i = 0 then false else bitOf a i := by
  rw [cmdWr, bitOf_and, bitOf_writeMask]
  split <;> simp [*]

/-- Settles O8: the masks of the two commands differ from an address in bit 0 alone. -/
theorem addressBitsPassThrough : Obligations.AddressBitsPassThrough := fun a i => ⟨bitOf_cmdRd a i, bitOf_cmdWr a i⟩

/-! ## The composites, by their sessions -/

/-- Settles O27: RDREG is the session that reads one byte; its command passes bit 7 of the address through. -/
theorem rdregReadsRegister : Obligations.RdregReadsRegister := by
  intro a s
  obtain ⟨x, hx, hsession⟩ := perform_readSession s.lines.ce (cmdRd a) s
  rw [bitOf_cmdRd, if_neg (by decide)] at hsession
  exact ⟨x, hx, (exec_eq_perform (.rdreg a) s).trans hsession⟩

/-- Settles O28: WRREG is the session that writes one byte. -/
theorem wrregWritesRegister : Obligations.WrregWritesRegister := fun a v s =>
  (exec_eq_perform (.wrreg a v) s).trans (perform_writeSession s.lines.ce (cmdWr a) v s)

/-- Settles O29: BURSTRD is the session that reads eight bytes, with the image written at its end; its command has bit 7
set. -/
theorem burstrdReadsImage : Obligations.BurstrdReadsImage := by
  intro s
  obtain ⟨b, hb, -, hsession⟩ := perform_burstReadSession s.lines.ce burstReadCmd s
  exact ⟨b, hb, (exec_eq_perform .burstrd s).trans hsession⟩

/-- Settles O30: the bytes BURSTRD samples are the ones the device presents, and it uses up their 64 answers. -/
theorem burstrdFillsImageInOrder : Obligations.BurstrdFillsImageInOrder := by
  intro s b rest hdevice
  obtain ⟨t, ht, hexec⟩ := burstrdReadsImage s
  obtain rfl : t = b := sampledBytes_scripted ht hdevice
  have hrest : s.device.drop 64 = rest := by rw [hdevice]; exact List.drop_left' (bitsOf8_length t)
  exact ⟨_, hexec, rfl, rfl, rfl, hrest⟩

/-- Settles O31: BURSTWR is the session that writes eight bytes. -/
theorem burstwrWritesImage : Obligations.BurstwrWritesImage := fun b s =>
  (exec_eq_perform (.burstwr b) s).trans (perform_burstWriteSession s.lines.ce burstWriteCmd b s)

/-! ## Primitives run one after the other -/

/-- What the checks of WRBYTE and RDBYTE ask for: an open session with the data line in direction `d` (R202). -/
def OpenFor (d : IoDir) (s : State) : Prop := s.lines.ce = true ∧ s.lines.ioDir = d

/-- The data line's direction after a command sent with or without release (R131): the one the session's transfers ask
for. -/
def transferDir (rel : Bool) : IoDir := if rel then .input else .output

theorem openFor_beginOps (c : Bool) (s : State) : OpenFor .output (runOps (beginOps c) s) := by
  rw [runOps_beginOps]
  exact ⟨rfl, rfl⟩

/-- WRBYTE turns the data line around exactly when it releases it (R131). -/
theorem openFor_wrbyteOps (v : Byte) (rel : Bool) {s : State} (h : OpenFor .output s) :
    OpenFor (transferDir rel) (runOps (wrbyteOps v rel) s) := by
  rw [runOps_wrbyteOps]
  exact ⟨h.1, by rw [moved_lines, h.2]; rfl⟩

theorem openFor_rdbyteOps {s : State} (h : OpenFor .input s) : OpenFor .input (runOps rdbyteOps s) := by
  obtain ⟨x, -, hops⟩ := runOps_rdbyteOps s
  rw [hops]
  exact h

theorem sequenceOf_finish (i : Instr) (s : State) : sequenceOf i (finish s) = sequenceOf i s := by
  cases i <;> rfl

/-- A request whose checks pass runs its operations, and the other requests follow. -/
theorem execAll_cons_of_ok {i : Instr} {s : State} {ops : List SeqOp} (h : sequenceOf i s = .ok ops)
    (rest : List Instr) : execAll (i :: rest) s = execAll rest (finish (runOps ops s)) := by
  rw [execAll, exec_of_ok h]

/-- The same after another request: of its response nothing stays visible once this one has given its own. -/
theorem execAll_cons_finish {i : Instr} {s : State} {ops : List SeqOp} (h : sequenceOf i s = .ok ops)
    (rest : List Instr) : execAll (i :: rest) (finish s) = execAll rest (finish (runOps ops s)) := by
  rw [execAll_cons_of_ok ((sequenceOf_finish i s).trans h), runOps_finish, finish_finish]

/-- A row of requests whose checks pass as long as `P` holds, each of which keeps `P`. -/
theorem execAll_map_finish {α : Type} {P : State → Prop} {f : α → Instr} {ops : α → List SeqOp}
    (hok : ∀ k s, P s → sequenceOf (f k) s = .ok (ops k)) (hkeep : ∀ k s, P s → P (runOps (ops k) s))
    (ks : List α) (rest : List Instr) {s : State} (hs : P s) :
    execAll (ks.map f ++ rest) (finish s) = execAll rest (finish (runOps (ks.flatMap ops) s)) := by
  induction ks generalizing s with
  | nil => rfl
  | cons k ks ih =>
    rw [List.map_cons, List.cons_append, execAll_cons_finish (hok k s hs), ih (hkeep k s hs), List.flatMap_cons,
      runOps_append]

/-- BEGIN and a WRBYTE, from any state: neither can fault. -/
theorem execAll_begin_wrbyte (v : Byte) (rel : Bool) (rest : List Instr) (s : State) :
    execAll (.beginSession :: .wrbyte v rel :: rest) s =
      execAll rest (finish (runOps (beginOps s.lines.ce ++ wrbyteOps v rel) s)) := by
  obtain ⟨hce, hdir⟩ := openFor_beginOps s.lines.ce s
  rw [execAll_cons_of_ok (ops := beginOps s.lines.ce) rfl, execAll_cons_finish (sequenceOf_wrbyte hce hdir),
    runOps_append]

theorem openFor_begin_wrbyte (c : Bool) (v : Byte) (rel : Bool) (s : State) :
    OpenFor (transferDir rel) (runOps (beginOps c ++ wrbyteOps v rel) s) := by
  rw [runOps_append]
  exact openFor_wrbyteOps v rel (openFor_beginOps c s)

/-- A last END. -/
theorem execAll_end_finish (s : State) : execAll [.endSession] (finish s) = .next (finish (runOps endOps s)) :=
  execAll_cons_finish (ops := endOps) rfl []

/-- A session's primitives are its operations, when its transfers pass their checks after a command sent with `rel` and
leave the session open. -/
theorem execAll_session {α : Type} {rel : Bool} {f : α → Instr} {ops : α → List SeqOp}
    (hok : ∀ k s, OpenFor (transferDir rel) s → sequenceOf (f k) s = .ok (ops k))
    (hkeep : ∀ k s, OpenFor (transferDir rel) s → OpenFor (transferDir rel) (runOps (ops k) s))
    (cmd : Byte) (ks : List α) (s : State) :
    execAll ([.beginSession, .wrbyte cmd rel] ++ ks.map f ++ [.endSession]) s =
      .next (finish (runOps (beginOps s.lines.ce ++ wrbyteOps cmd rel ++ ks.flatMap ops ++ endOps) s)) := by
  have htransfers := execAll_map_finish hok hkeep ks [.endSession] (openFor_begin_wrbyte s.lines.ce cmd rel s)
  rw [List.append_assoc, List.cons_append, List.cons_append, List.nil_append, execAll_begin_wrbyte, htransfers,
    execAll_end_finish, ← runOps_append, ← runOps_append, ← List.append_assoc]

theorem execAll_writeSession {α : Type} (cmd : Byte) (v : α → Byte) (ks : List α) (s : State) :
    execAll ([.beginSession, .wrbyte cmd false] ++ ks.map (fun k => .wrbyte (v k) false) ++ [.endSession]) s =
      .next (finish (runOps (beginOps s.lines.ce ++ wrbyteOps cmd false ++
        ks.flatMap (fun k => wrbyteOps (v k) false) ++ endOps) s)) :=
  execAll_session (rel := false) (fun _ _ h => sequenceOf_wrbyte h.1 h.2)
    (fun k _ h => openFor_wrbyteOps (v k) false h) cmd ks s

theorem execAll_readSession {α : Type} (cmd : Byte) (ks : List α) (s : State) :
    execAll ([.beginSession, .wrbyte cmd true] ++ ks.map (fun _ => .rdbyte) ++ [.endSession]) s =
      .next (finish (runOps (beginOps s.lines.ce ++ wrbyteOps cmd true ++
        ks.flatMap (fun _ => rdbyteOps) ++ endOps) s)) :=
  execAll_session (rel := true) (fun _ _ h => sequenceOf_rdbyte h.1 h.2) (fun _ _ h => openFor_rdbyteOps h) cmd ks s

/-! ## The burst buffer and the image come on top (R160, R163) -/

/-- The operations that write the burst buffer, or the image from it. -/
def storesImage : SeqOp → Bool
  | .bufferByte _ => true
  | .commitImage => true
  | _ => false

/-- `s` with the burst buffer and the image of `r`. -/
def withImageOf (r s : State) : State := { s with burst := r.burst, img := r.img, imgValid := r.imgValid }

theorem withImageOf_runOp_of_stores {o : SeqOp} (h : storesImage o = true) (r s : State) :
    withImageOf r (runOp o s) = withImageOf r s := by
  cases o with
  | bufferByte k => rfl
  | commitImage => rfl
  | _ => exact absurd h Bool.false_ne_true

theorem runOp_withImageOf {o : SeqOp} (h : storesImage o = false) (r s : State) :
    runOp o (withImageOf r s) = withImageOf r (runOp o s) := by
  cases o with
  | bufferByte k => exact absurd h.symm Bool.false_ne_true
  | commitImage => exact absurd h.symm Bool.false_ne_true
  | _ => rfl

/-- The operations that store the image change nothing else, and the others do not look at what they store. -/
theorem runOps_filter_storesImage (ops : List SeqOp) (r s : State) :
    runOps (ops.filter fun o => !storesImage o) (withImageOf r s) = withImageOf r (runOps ops s) := by
  induction ops generalizing s with
  | nil => rfl
  | cons o ops ih =>
    rw [runOps_cons]
    cases h : storesImage o with
    | true =>
      rw [List.filter_cons_of_neg (by simp [h]), ← ih, withImageOf_runOp_of_stores h]
    | false =>
      rw [List.filter_cons_of_pos (by simp [h]), runOps_cons, runOp_withImageOf h, ih]

theorem filter_storesImage_beginOps (c : Bool) :
    (beginOps c).filter (fun o => !storesImage o) = beginOps c := by
  cases c <;> rfl

theorem filter_storesImage_wrbyteOps (v : Byte) (rel : Bool) :
    (wrbyteOps v rel).filter (fun o => !storesImage o) = wrbyteOps v rel := by
  cases rel <;> rfl

theorem filter_storesImage_burstByte (k : Fin 8) :
    (rdbyteOps ++ [SeqOp.bufferByte k]).filter (fun o => !storesImage o) = rdbyteOps := rfl

theorem filter_storesImage_endOps : endOps.filter (fun o => !storesImage o) = endOps := rfl

theorem filter_storesImage_commitImage : [SeqOp.commitImage].filter (fun o => !storesImage o) = [] := rfl

/-- BURSTRD's operations without the ones that store the image are its primitives' operations. -/
theorem filter_storesImage_burstrdOps (c : Bool) :
    (burstrdOps c).filter (fun o => !storesImage o) =
      beginOps c ++ wrbyteOps burstReadCmd true ++ indices8.flatMap (fun _ => rdbyteOps) ++ endOps := by
  rw [burstrdOps, burstReadSession, List.filter_append, List.filter_append, List.filter_append, List.filter_append,
    List.filter_flatMap, filter_storesImage_beginOps, filter_storesImage_wrbyteOps, filter_storesImage_endOps,
    filter_storesImage_commitImage, List.append_nil]
  simp only [filter_storesImage_burstByte]

/-- Settles O32: a composite's session is its primitives' operations one after the other, for none of their checks can
fail; BURSTRD's also stores the image, which no primitive looks at. -/
theorem compositeEqualsPrimitiveSequence : Obligations.CompositeEqualsPrimitiveSequence := by
  refine fun s => ⟨fun a => ?_, fun a v => ?_, fun b => ?_, _, exec_of_ok (ops := burstrdOps s.lines.ce) rfl, ?_⟩
  · have hprims := execAll_readSession (cmdRd a) [()] s
    exact (exec_of_ok (i := .rdreg a) rfl).trans hprims.symm
  · have hprims := execAll_writeSession (cmdWr a) (fun _ => v) [()] s
    exact (exec_of_ok (i := .wrreg a v) rfl).trans hprims.symm
  · have hprims := execAll_writeSession burstWriteCmd (byteAt b) indices8 s
    exact (exec_of_ok (i := .burstwr b) rfl).trans hprims.symm
  · have hprims := execAll_readSession burstReadCmd indices8 s
    have hstore := runOps_filter_storesImage (burstrdOps s.lines.ce) s s
    rw [filter_storesImage_burstrdOps] at hstore
    exact hprims.trans (congrArg (fun t => Host.Outcome.next (finish t)) hstore)

/-! ## What the parts of a burst read show (R161, R164) -/

theorem afterRising_zero (level : Bool) (t : PadTrace) : afterRising 0 level t = t := by
  cases t <;> rfl

/-- Once enough rising edges are in the front part, what follows it is all still to come. -/
theorem afterRising_append {n : Nat} {level : Bool} {t : PadTrace} (h : n ≤ risingEdges level t) (u : PadTrace) :
    afterRising n level (t ++ u) = afterRising n level t ++ u := by
  induction t generalizing n level with
  | nil =>
    obtain rfl : n = 0 := Nat.le_zero.1 h
    rw [afterRising_zero, afterRising_zero]
  | cons e t ih =>
    cases n with
    | zero => rfl
    | succ n =>
      cases e with
      | sclk b =>
        rw [risingEdges] at h
        rw [List.cons_append, afterRising, afterRising]
        split
        next hrise =>
          rw [if_pos hrise] at h
          exact ih (by omega)
        next hrise =>
          rw [if_neg hrise] at h
          exact ih (by omega)
      | _ => exact ih h

theorem afterRising_suffix (n : Nat) (level : Bool) (t : PadTrace) : afterRising n level t <:+ t := by
  induction t generalizing n level with
  | nil => cases n <;> exact List.suffix_rfl
  | cons e t ih =>
    cases n with
    | zero => exact List.suffix_rfl
    | succ n =>
      refine List.IsSuffix.trans ?_ (List.suffix_cons e t)
      cases e with
      | sclk b =>
        rw [afterRising]
        split <;> exact ih _ _
      | _ => exact ih _ _

/-- If a front part with enough rising edges has no samples, all samples come after those edges. -/
theorem sampleCount_afterRising_append {n : Nat} {level : Bool} {t : PadTrace} (h : n ≤ risingEdges level t)
    (hnone : sampleCount t = 0) (u : PadTrace) : sampleCount (afterRising n level (t ++ u)) = sampleCount u := by
  have hfront : sampleCount (afterRising n level t) ≤ sampleCount t :=
    (afterRising_suffix n level t).sublist.countP_le
  rw [afterRising_append h, sampleCount_append]
  omega

/-- BEGIN brings the clock low, whatever its level, and never raises it. -/
theorem risingEdges_beginTrace (level c : Bool) : risingEdges level (beginTrace c) = 0 := by
  cases c <;> cases level <;> rfl

theorem levelAfter_beginTrace (level c : Bool) : levelAfter level (beginTrace c) = false := by
  cases c <;> rfl

theorem risingEdges_wrbyteTrace (v : Byte) (rel : Bool) : risingEdges false (wrbyteTrace v rel) = 8 := by
  cases rel <;> simp [wrbyteTrace, wrbitTrace, indices8, risingEdges]

/-- From any clock level, a session's command has its eighth rising edge. -/
theorem risingEdges_begin_wrbyte (level c : Bool) (v : Byte) (rel : Bool) :
    risingEdges level (beginTrace c ++ wrbyteTrace v rel) = 8 := by
  rw [risingEdges_append, risingEdges_beginTrace, levelAfter_beginTrace, risingEdges_wrbyteTrace]

theorem sampleCount_beginTrace (c : Bool) : sampleCount (beginTrace c) = 0 := by
  cases c <;> rfl

theorem sampleCount_wrbyteTrace (v : Byte) (rel : Bool) : sampleCount (wrbyteTrace v rel) = 0 := by
  cases rel <;> rfl

theorem sampleCount_rdbyteTrace (x : Byte) : sampleCount (rdbyteTrace x) = 8 := rfl

theorem sampleCount_rdbytesTrace (b : Bytes8) : sampleCount (rdbytesTrace b) = 64 := by
  simp only [rdbytesTrace, indices8, List.flatMap_cons, List.flatMap_nil, sampleCount_append, sampleCount_rdbyteTrace]
  rfl

theorem sampleCount_endTrace : sampleCount endTrace = 0 := rfl

theorem drivenBits_beginTrace (c : Bool) : drivenBits (beginTrace c) = [] := by
  cases c <;> rfl

theorem drivenBits_wrbyteTrace (v : Byte) (rel : Bool) : drivenBits (wrbyteTrace v rel) = bitsOf v := by
  cases rel <;> rfl

theorem drivenBits_rdbyteTrace (x : Byte) : drivenBits (rdbyteTrace x) = [] := rfl

theorem drivenBits_rdbytesTrace (b : Bytes8) : drivenBits (rdbytesTrace b) = [] := by
  simp only [rdbytesTrace, indices8, List.flatMap_cons, List.flatMap_nil, drivenBits_append, drivenBits_rdbyteTrace]
  rfl

theorem drivenBits_endTrace : drivenBits endTrace = [] := rfl

theorem filter_isCe_beginTrace (c : Bool) : (beginTrace c).filter isCe = [.ce false, .ce true] := by
  cases c <;> rfl

theorem filter_isCe_wrbyteTrace (v : Byte) (rel : Bool) : (wrbyteTrace v rel).filter isCe = [] := by
  cases rel <;> rfl

theorem filter_isCe_rdbyteTrace (x : Byte) : (rdbyteTrace x).filter isCe = [] := rfl

theorem filter_isCe_rdbytesTrace (b : Bytes8) : (rdbytesTrace b).filter isCe = [] := by
  rw [rdbytesTrace, List.filter_flatMap]
  simp only [filter_isCe_rdbyteTrace]
  rfl

theorem filter_isCe_endTrace : endTrace.filter isCe = [.ce false] := rfl

/-- Only BEGIN and END move select in a burst read. -/
theorem filter_isCe_burstReadTrace (c : Bool) (cmd : Byte) (b : Bytes8) :
    (burstReadTrace c cmd b).filter isCe = [.ce false, .ce true, .ce false] := by
  rw [burstReadTrace, List.filter_append, List.filter_append, List.filter_append, filter_isCe_beginTrace,
    filter_isCe_wrbyteTrace, filter_isCe_rdbytesTrace, filter_isCe_endTrace]
  rfl

/-- Only the command is driven in a burst read. -/
theorem drivenBits_burstReadTrace (c : Bool) (cmd : Byte) (b : Bytes8) :
    drivenBits (burstReadTrace c cmd b) = bitsOf cmd := by
  rw [burstReadTrace, drivenBits_append, drivenBits_append, drivenBits_append, drivenBits_beginTrace,
    drivenBits_wrbyteTrace, drivenBits_rdbytesTrace, drivenBits_endTrace, List.nil_append, List.append_nil,
    List.append_nil]

theorem sampleCount_begin_wrbyte (c : Bool) (v : Byte) (rel : Bool) :
    sampleCount (beginTrace c ++ wrbyteTrace v rel) = 0 := by
  rw [sampleCount_append, sampleCount_beginTrace, sampleCount_wrbyteTrace]

theorem sampleCount_rdbytes_end (b : Bytes8) : sampleCount (rdbytesTrace b ++ endTrace) = 64 := by
  rw [sampleCount_append, sampleCount_rdbytesTrace, sampleCount_endTrace]

theorem sampleCount_burstReadTrace (c : Bool) (cmd : Byte) (b : Bytes8) :
    sampleCount (burstReadTrace c cmd b) = 64 := by
  rw [burstReadTrace, List.append_assoc, sampleCount_append, sampleCount_begin_wrbyte, sampleCount_rdbytes_end]

/-- All samples of a burst read come after the command's last rising edge. -/
theorem sampleCount_afterRising_burstReadTrace (level c : Bool) (cmd : Byte) (b : Bytes8) :
    sampleCount (afterRising 8 level (burstReadTrace c cmd b)) = 64 := by
  rw [burstReadTrace, List.append_assoc, sampleCount_afterRising_append (risingEdges_begin_wrbyte _ _ _ _).ge
    (sampleCount_begin_wrbyte _ _ _), sampleCount_rdbytes_end]

/-- Settles O34: the events a BURSTRD appends are `burstReadTrace`, and each part of that trace shows what it must. -/
theorem burstrdIsOneSessionCommandFirst : Obligations.BurstrdIsOneSessionCommandFirst := by
  intro s
  obtain ⟨b, -, hexec⟩ := burstrdReadsImage s
  exact ⟨_, burstReadTrace s.lines.ce 0xBF b, hexec, rfl, filter_isCe_burstReadTrace _ _ _,
    drivenBits_burstReadTrace _ _ _, sampleCount_burstReadTrace _ _ _,
    sampleCount_afterRising_burstReadTrace _ _ _ _⟩

end Sys2Proof.Machine
end

section
/-! PROOFS. The time decoder family (42_time_decoder.md): SEC, MIN and HOUR as numbers (R185 to R187, R194), DFLAGS bit
by bit (R188 to R191), and what valid BCD fields and the 12-hour bits decode to (R193, R195, R196). -/

namespace Sys2Proof.Machine

/-! ## Fields of the image -/

/-- A field that starts at bit 0 of its byte. -/
theorem fieldValue_low (k : Fin 8) (w : Nat) (img : Bytes8) :
    fieldValue ⟨k, 0, w⟩ img = (byteAt img k).toNat % 2 ^ w := by
  rw [fieldValue_eq, pow_zero, Nat.div_one]

/-- The top bit of a field and the field without it. -/
theorem fieldValue_succ (k : Fin 8) (lo w : Nat) (img : Bytes8) :
    fieldValue ⟨k, lo, w + 1⟩ img =
      fieldValue ⟨k, lo, w⟩ img + 2 ^ w * ((byteAt img k).getLsbD (lo + w)).toNat := by
  rw [fieldValue, Nat.mod_pow_succ, ← Nat.toNat_testBit, Nat.testBit_shiftRight, BitVec.testBit_toNat]
  rfl

/-- A one-bit field is the bit it stands on. -/
theorem fieldFlag_eq_bitOf (k i : Fin 8) (img : Bytes8) : fieldFlag ⟨k, i, 1⟩ img = bitOf (byteAt img k) i := by
  rw [fieldFlag, fieldValue_eq, bitOf_toNat, pow_one]

/-- Setting a bit of the hours byte that no bit of the field stands on leaves the field. -/
theorem fieldValue_setBit_hours {lo w : Nat} {i : Fin 8} (h : i.val < lo ∨ lo + w ≤ i.val) (b : Bool)
    (img : Bytes8) :
    fieldValue ⟨2, lo, w⟩ { img with b2 := setBit img.b2 i b } = fieldValue ⟨2, lo, w⟩ img := by
  induction w with
  | zero => simp only [fieldValue, pow_zero, Nat.mod_one]
  | succ w ih =>
    have htop : (setBit img.b2 i b).getLsbD (lo + w) = img.b2.getLsbD (lo + w) := by
      by_cases hw : lo + w < 8
      · exact (bitOf_setBit img.b2 i ⟨lo + w, hw⟩ b).trans (if_neg (Fin.ne_of_val_ne (by simp only; omega)))
      · rw [BitVec.getLsbD_of_ge _ _ (by omega), BitVec.getLsbD_of_ge _ _ (by omega)]
    rw [fieldValue_succ, fieldValue_succ, ih (by omega)]
    exact congrArg (fun c => _ + 2 ^ w * Bool.toNat c) htop

/-! ## SEC, MIN and HOUR as numbers (R185 to R187, R194) -/

/-- Two digits are at most all ones each. -/
theorem decimal_le (tens units : BitField) (img : Bytes8) :
    decimal tens units img ≤ 10 * (2 ^ tens.width - 1) + (2 ^ units.width - 1) :=
  Nat.add_le_add (Nat.mul_le_mul_left _ (Nat.le_pred_of_lt (fieldValue_lt _ _))) (Nat.le_pred_of_lt (fieldValue_lt _ _))

/-- Two digits that fit a byte at their largest are exact as a byte (R194). -/
theorem toNat_decimal {tens units : BitField} (h : 10 * (2 ^ tens.width - 1) + (2 ^ units.width - 1) < 2 ^ 8)
    (img : Bytes8) : (BitVec.ofNat 8 (decimal tens units img)).toNat = decimal tens units img := by
  rw [BitVec.toNat_ofNat, Nat.mod_eq_of_lt ((decimal_le _ _ _).trans_lt h)]

/-- Units in the low four bits of a byte and tens just above them, as in each of the three values. -/
theorem toNat_decimal_of_byte (k : Fin 8) {w : Nat} (h : 10 * (2 ^ w - 1) + (2 ^ 4 - 1) < 2 ^ 8) (img : Bytes8) :
    (BitVec.ofNat 8 (decimal ⟨k, 4, w⟩ ⟨k, 0, 4⟩ img)).toNat =
      10 * ((byteAt img k).toNat / 2 ^ 4 % 2 ^ w) + (byteAt img k).toNat % 2 ^ 4 := by
  rw [toNat_decimal h, decimal, fieldValue_eq, fieldValue_low]

theorem toNat_sec (img : Bytes8) :
    (sec imageLayout img).toNat = 10 * (img.b0.toNat / 16 % 8) + img.b0.toNat % 16 :=
  toNat_decimal_of_byte 0 (w := 3) (by decide) img

theorem toNat_minute (img : Bytes8) :
    (minute imageLayout img).toNat = 10 * (img.b1.toNat / 16 % 8) + img.b1.toNat % 16 :=
  toNat_decimal_of_byte 1 (w := 3) (by decide) img

theorem toNat_hour (img : Bytes8) :
    (hour imageLayout img).toNat = 10 * (img.b2.toNat / 16 % 4) + img.b2.toNat % 16 :=
  toNat_decimal_of_byte 2 (w := 2) (by decide) img

/-- Settles O51: the values digit by digit, and the ranges from the largest digits the fields can hold. -/
theorem decodedTimeValues : Obligations.DecodedTimeValues := fun img =>
  ⟨toNat_sec img, toNat_minute img, toNat_hour img, (toNat_decimal (by decide) img).trans_le (decimal_le _ _ img),
    (toNat_decimal (by decide) img).trans_le (decimal_le _ _ img),
    (toNat_decimal (by decide) img).trans_le (decimal_le _ _ img)⟩

/-! ## DFLAGS (R188 to R191) -/

theorem softZero_iff {img : Bytes8} : softZero img = true ↔ ∀ k, byteAt img k = 0x00 := by
  have hall : ∀ k, k ∈ indices8 := by decide
  simp only [softZero, List.all_eq_true, beq_iff_eq, hall, forall_const]

theorem softBcd_iff {img : Bytes8} : softBcd imageLayout img = true ↔
    9 < img.b0.toNat % 16 ∨ 9 < img.b1.toNat % 16 ∨ 9 < img.b2.toNat % 16 := by
  have h0 : fieldValue imageLayout.secUnits img = img.b0.toNat % 16 := fieldValue_low 0 4 img
  have h1 : fieldValue imageLayout.minUnits img = img.b1.toNat % 16 := fieldValue_low 1 4 img
  have h2 : fieldValue imageLayout.hourUnits img = img.b2.toNat % 16 := fieldValue_low 2 4 img
  simp only [softBcd, h0, h1, h2, Bool.or_eq_true, decide_eq_true_eq, or_assoc]

theorem softRange_iff {L : ImageLayout} {img : Bytes8} : softRange L img = true ↔
    59 < (sec L img).toNat ∨ 59 < (minute L img).toNat ∨ 23 < (hour L img).toNat := by
  simp only [softRange, Bool.or_eq_true, decide_eq_true_eq, or_assoc]

/-- Settles O52: the byte is put together from its flags; the first four are bits of the image, and each soft flag says
what its rule says. -/
theorem decoderFlags : Obligations.DecoderFlags := by
  intro img
  obtain ⟨hch, hhr12, hpm, hwp, hzero, hbcd, hrange, hres⟩ := bitOf_byteOfBits (fieldFlag imageLayout.ch img)
    (fieldFlag imageLayout.hr12 img) (fieldFlag imageLayout.pm img) (fieldFlag imageLayout.wp img) (softZero img)
    (softBcd imageLayout img) (softRange imageLayout img) false
  exact ⟨hch.trans (fieldFlag_eq_bitOf 0 7 img), hhr12.trans (fieldFlag_eq_bitOf 2 7 img),
    hpm.trans (fieldFlag_eq_bitOf 2 5 img), hwp.trans (fieldFlag_eq_bitOf 7 7 img),
    (Bool.eq_iff_iff.1 hzero).trans softZero_iff, (Bool.eq_iff_iff.1 hbcd).trans softBcd_iff,
    (Bool.eq_iff_iff.1 hrange).trans softRange_iff, hres⟩

/-! ## Valid BCD fields (R195, R196) -/

/-- Settles O53: each value is written as its two digits, which are bounded by hypothesis. -/
theorem validFieldsDecodeInRange : Obligations.ValidFieldsDecodeInRange := by
  intro img
  refine ⟨fun ht hu => ?_, fun ht hu => ?_, fun h => ?_, fun ht hlo hhi => ?_⟩
  · rw [toNat_sec]; omega
  · rw [toNat_minute]; omega
  · rw [toNat_hour]
    obtain ⟨ht, hu⟩ | ⟨ht, hu⟩ := h <;> omega
  · have hge : 24 ≤ (hour imageLayout img).toNat := by rw [toNat_hour]; omega
    have hle : (hour imageLayout img).toNat ≤ 29 := by rw [toNat_hour]; omega
    exact ⟨hge, hle, softRange_iff.2 (.inr (.inr hge))⟩

/-- Settles O54: the fields of the BCD of `v` are `v / 10` and `v % 10`, and the clock-halt bit stands above both. -/
theorem bcdRoundTrip : Obligations.BcdRoundTrip := by
  intro img v
  refine ⟨fun hv x hx hb => ?_, fun hv hb => ?_, fun hv hb => ?_⟩
  · rw [toNat_sec, hb]; omega
  · rw [toNat_minute, hb]; omega
  · rw [toNat_hour, hb]; omega

/-! ## The 12-hour bits of the hours byte (R193) -/

/-- HOUR is the hour of a 12-hour clock with 20 added when the PM bit is set: PM is the upper bit of the tens digit. -/
theorem toNat_hour_eq_hour12_add (img : Bytes8) :
    (hour imageLayout img).toNat = (hour12 imageLayout img).2 + 20 * (bitOf img.b2 5).toNat := by
  have htens : fieldValue imageLayout.hourTens24 img =
      fieldValue imageLayout.hourTens12 img + 2 * (bitOf img.b2 5).toNat := fieldValue_succ 2 4 1 img
  rw [hour, toNat_decimal (by decide), decimal, htens, hour12, decimal]
  omega

/-- The PM bit is no part of the hour of a 12-hour clock. -/
theorem hour12_setBit_pm (b : Bool) (img : Bytes8) :
    (hour12 imageLayout { img with b2 := setBit img.b2 5 b }).2 = (hour12 imageLayout img).2 :=
  congrArg₂ (fun t u => 10 * t + u) (fieldValue_setBit_hours (.inr (by decide)) b img)
    (fieldValue_setBit_hours (.inr (by decide)) b img)

/-- The mode bit is no part of HOUR. -/
theorem hour_setBit_mode (m : Bool) (img : Bytes8) :
    hour imageLayout { img with b2 := setBit img.b2 7 m } = hour imageLayout img :=
  congrArg₂ (fun t u => BitVec.ofNat 8 (10 * t + u)) (fieldValue_setBit_hours (.inr (by decide)) m img)
    (fieldValue_setBit_hours (.inr (by decide)) m img)

/-- HOUR of a given hours byte. -/
theorem hour_of_hoursByte {img : Bytes8} {v : Byte} (h : img.b2 = v) :
    hour imageLayout img = BitVec.ofNat 8 (10 * (v.toNat / 16 % 4) + v.toNat % 16) := by
  rw [← h, ← toNat_hour, BitVec.ofNat_toNat, BitVec.setWidth_eq]

/-- Settles O55: PM adds 20 to a value it is no part of, the mode bit is in no field of HOUR, and the two examples are
computed from the hours byte. -/
theorem twelveHourModeIsNotDecoded : Obligations.TwelveHourModeIsNotDecoded := by
  intro img
  obtain ⟨-, hhr12, -⟩ := decoderFlags img
  refine ⟨fun hpm => ?_, fun m => hour_setBit_mode m img, fun h => ⟨hour_of_hoursByte h, ?_⟩,
    fun h => ⟨hour_of_hoursByte h, ?_⟩⟩
  · have hset : bitOf (setBit img.b2 5 true) 5 = true := bitOf_setBit img.b2 5 5 true
    rw [toNat_hour_eq_hour12_add, toNat_hour_eq_hour12_add img, hour12_setBit_pm, hset, hpm]
    rfl
  · rw [hhr12, h]; rfl
  · rw [hhr12, h]; rfl

end Sys2Proof.Machine
end

section
/-! PROOFS. The exceptions family (60_exceptions.md): which requests fault and with which error bit (R201), a fault is
precise (R203), and the error bits are sticky (R204). -/

namespace Sys2Proof.Machine

/-! ## Which requests fault (R201) -/

/-- The checks of WRBYTE and RDBYTE find a closed session or a wrong direction, and nothing else. -/
theorem busFault_eq_some {need : IoDir} {l : Lines} {k : FaultKind} (h : busFault need l = some k) :
    k = .nosess ∨ k = .dir := by
  cases hce : l.ce with
  | false => exact .inl (Option.some.inj (h.symm.trans (busFault_of_closed hce)))
  | true =>
    by_cases hdir : l.ioDir = need
    · exact absurd (h.symm.trans (busFault_of_right hce hdir)) (Option.some_ne_none k)
    · exact .inr (Option.some.inj (h.symm.trans (busFault_of_wrong hce hdir)))

/-- Only WRBYTE and RDBYTE have checks that can fail. -/
theorem sequenceOf_eq_error {i : Instr} {s : State} {k : FaultKind} (h : sequenceOf i s = .error k) :
    ((∃ v rel, i = .wrbyte v rel) ∨ i = .rdbyte) ∧ (k = .nosess ∨ k = .dir) := by
  cases i with
  | wrbyte v rel =>
    cases hf : busFault .output s.lines with
    | none =>
      obtain ⟨hce, hdir⟩ := busFault_eq_none.1 hf
      cases (sequenceOf_wrbyte hce hdir).symm.trans h
    | some k' =>
      cases (sequenceOf_wrbyte_of_fault hf).symm.trans h
      exact ⟨.inl ⟨v, rel, rfl⟩, busFault_eq_some hf⟩
  | rdbyte =>
    cases hf : busFault .input s.lines with
    | none =>
      obtain ⟨hce, hdir⟩ := busFault_eq_none.1 hf
      cases (sequenceOf_rdbyte hce hdir).symm.trans h
    | some k' =>
      cases (sequenceOf_rdbyte_of_fault hf).symm.trans h
      exact ⟨.inr rfl, busFault_eq_some hf⟩
  | _ => cases h

/-- A response with an error comes from a fault that the checks found: a request that runs answers without one. -/
theorem exec_rspErr {i : Instr} {s t : State} (h : exec i s = .next t) (herr : t.rspErr = true) :
    ∃ k, sequenceOf i s = .error k ∧ t = afterFault k s := by
  obtain ⟨k, hseq, ht⟩ | ⟨ops, -, ht⟩ := exec_cases h
  · exact ⟨k, hseq, ht.trans (raiseFault_eq k s)⟩
  · have hno : t.rspErr = false := by rw [ht, runRequest, respond_rspErr]
    exact absurd (hno.symm.trans herr) Bool.false_ne_true

/-- A presented word that decodes to no request is the fault ILL (R93). -/
theorem takeRequest_of_decode_error {p : Presented} {e : DecodeError} (h : decode p = .error e) (s : State) :
    takeRequest p s = .next (afterFault .ill s) := by
  rw [takeRequest, h, raiseFault_eq]

/-- Settles O40: an error comes from the checks of a WRBYTE or an RDBYTE, which find NOSESS or DIR, or from a word that
does not decode; what taking the fault leaves unchanged is read off `afterFault`. -/
theorem faultIsPrecise : Obligations.FaultIsPrecise := by
  refine ⟨fun i s t hexec herr => ?_, fun w s hbad => ?_⟩
  · obtain ⟨k, hseq, rfl⟩ := exec_rspErr hexec herr
    obtain ⟨hinstr, hkind⟩ := sequenceOf_eq_error hseq
    exact ⟨hinstr, hkind.imp (congrArg (afterFault · s)) (congrArg (afterFault · s)),
      rfl, rfl, rfl, rfl, rfl, rfl, rfl, rfl⟩
  · cases hd : decode (.req w) with
    | ok i => exact absurd hd (hbad i)
    | error e => exact takeRequest_of_decode_error hd s

/-! ## The error bits across a step (R204) -/

/-- No error bit that is set in `s` is clear in `t`. -/
def KeepsErrors (s t : State) : Prop :=
  (s.errIll = true → t.errIll = true) ∧ (s.errNosess = true → t.errNosess = true) ∧ (s.errDir = true → t.errDir = true)

theorem keepsErrors_of_eq {s t : State}
    (h : t.errIll = s.errIll ∧ t.errNosess = s.errNosess ∧ t.errDir = s.errDir) : KeepsErrors s t := by
  obtain ⟨hill, hnosess, hdir⟩ := h
  exact ⟨hill.trans, hnosess.trans, hdir.trans⟩

/-- Taking a fault adds its own bit to those already set. -/
theorem keepsErrors_raiseFault (k : FaultKind) (s : State) : KeepsErrors s (raiseFault k s) := by
  refine ⟨fun h => ?_, fun h => ?_, fun h => ?_⟩
  · rw [raiseFault_errIll, h, Bool.true_or]
  · rw [raiseFault_errNosess, h, Bool.true_or]
  · rw [raiseFault_errDir, h, Bool.true_or]

/-- The operations of a running request touch no error bit. -/
theorem complete_errors (s : State) :
    (complete s).errIll = s.errIll ∧ (complete s).errNosess = s.errNosess ∧ (complete s).errDir = s.errDir := by
  obtain ⟨-, hill, hnosess, hdir, -⟩ := runOps_frame s.seq s
  rw [complete_eq]
  exact ⟨hill, hnosess, hdir⟩

theorem runMidway_errors (ops : List SeqOp) (n : Nat) (s : State) :
    (runMidway ops n s).errIll = s.errIll ∧ (runMidway ops n s).errNosess = s.errNosess ∧
      (runMidway ops n s).errDir = s.errDir := by
  obtain ⟨hill, hnosess, hdir, -⟩ := runMidway_frame ops n s
  exact ⟨hill, hnosess, hdir⟩

/-- Without a reset, every case of `step_cases` leaves the error bits as they are, but for the fault, which adds one. -/
theorem step_keepsErrors {s t : State} (h : step s = .next t) (hreset : resetNow s = false) : KeepsErrors s t := by
  obtain ⟨hrst, -⟩ | ⟨-, hcase⟩ := step_cases h
  · exact absurd (hreset.symm.trans hrst) Bool.false_ne_true
  obtain ⟨-, rfl⟩ | ⟨-, rest, rfl⟩ | ⟨-, k, rest, rfl⟩ | ⟨-, i, ops, rest, -, rfl⟩ | ⟨-, i, ops, n, rest, -, rfl⟩ := hcase
  · exact keepsErrors_of_eq (complete_errors s)
  · exact keepsErrors_of_eq ⟨rfl, rfl, rfl⟩
  · exact keepsErrors_raiseFault k { s with host := rest }
  · exact keepsErrors_of_eq (complete_errors (accept ops { s with host := rest }))
  · exact keepsErrors_of_eq (runMidway_errors ops n { s with host := rest })

theorem noError_applyReset (s : State) : NoError (applyReset s) := ⟨rfl, rfl, rfl⟩

theorem step_of_reset {s t : State} (h : step s = .next t) (hreset : resetNow s = true) :
    ∃ rest, t = applyReset { s with host := rest } := by
  obtain ⟨-, rest, -, ht⟩ | ⟨hno, -⟩ := step_cases h
  · exact ⟨rest, ht⟩
  · exact absurd (hno.symm.trans hreset) Bool.false_ne_true

/-- Settles O41: a step without a reset keeps the bits that are set, and a step with one ends in a reset state. -/
theorem errorBitsAreSticky : Obligations.ErrorBitsAreSticky := by
  refine ⟨fun s => ⟨?_, ?_, ?_⟩, fun s t hstep => ⟨step_keepsErrors hstep, fun hreset => ?_⟩⟩
  · rw [raiseFault_errIll]; exact Bool.or_true _
  · rw [raiseFault_errNosess]; exact Bool.or_true _
  · rw [raiseFault_errDir]; exact Bool.or_true _
  · obtain ⟨rest, rfl⟩ := step_of_reset hstep hreset
    exact noError_applyReset { s with host := rest }

end Sys2Proof.Machine
end

section
/-! PROOFS. The wire words (30_encoding.md R100 to R104, log 4): what each decodes to, the way back (R98), and that
whatever is decoded is well formed (R70, R104). -/

namespace Sys2Proof.Machine

/-! ## The command byte of each class (R100, R102) -/

theorem eq_of_classify_burstRd {v : Byte} (h : classify v = .burstRd) : v = burstReadCmd := by
  revert v
  decide

theorem eq_of_classify_burstWr {v : Byte} (h : classify v = .burstWr) : v = burstWriteCmd := by
  revert v
  decide

theorem eq_of_classify_clkRd {v : Byte} (h : classify v = .clkRd) :
    cmdReg v ≠ 31#5 ∧ v = cmdByte false (cmdReg v) true := by
  revert v
  decide

theorem eq_of_classify_clkWr {v : Byte} (h : classify v = .clkWr) :
    cmdReg v ≠ 31#5 ∧ v = cmdByte false (cmdReg v) false := by
  revert v
  decide

theorem eq_of_classify_ramRd {v : Byte} (h : classify v = .ramRd) : v = cmdByte true (cmdReg v) true := by
  revert v
  decide

theorem eq_of_classify_ramWr {v : Byte} (h : classify v = .ramWr) : v = cmdByte true (cmdReg v) false := by
  revert v
  decide

theorem eq_of_classify_nomark {v : Byte} (h : classify v = .nomark) : v = nomarkByte (v.extractLsb' 0 7) := by
  revert v
  decide

/-! ## What a wire word decodes to (R102, R104) -/

/-- The command byte and the data bytes its session carries spell the wire command `i`. No wire word spells a request.
-/
def SpellsWire (w : WireWord) : Instr → Prop
  | .cmdBurstRd => wireCmd w = burstReadCmd
  | .cmdBurstWr b => wireCmd w = burstWriteCmd ∧ wireD w = dOfBytes b
  | .cmdClkRd reg => reg ≠ 31#5 ∧ wireCmd w = cmdByte false reg true
  | .cmdClkWr reg v => reg ≠ 31#5 ∧ wireCmd w = cmdByte false reg false ∧ wireV w = v
  | .cmdRamRd reg => wireCmd w = cmdByte true reg true
  | .cmdRamWr reg v => wireCmd w = cmdByte true reg false ∧ wireV w = v
  | .cmdNomark bits v => wireCmd w = nomarkByte bits ∧ nomarkData (nomarkByte bits) (wireV w) = v
  | .beginSession | .endSession | .wrbyte _ _ | .rdbyte | .rdreg _ | .wrreg _ _ | .burstrd | .burstwr _ => False

/-- The decoder gives the wire command that the word spells, by the class of its command byte. -/
theorem spellsWire_decodeWire (w : WireWord) : SpellsWire w (decodeWire w) := by
  unfold decodeWire
  split
  · next h => exact eq_of_classify_burstRd h
  · next h => exact ⟨eq_of_classify_burstWr h, (dOfBytes_bytesOfD _).symm⟩
  · next h => exact eq_of_classify_clkRd h
  · next h => exact ⟨(eq_of_classify_clkWr h).1, (eq_of_classify_clkWr h).2, rfl⟩
  · next h => exact eq_of_classify_ramRd h
  · next h => exact ⟨eq_of_classify_ramWr h, rfl⟩
  · next h => exact ⟨eq_of_classify_nomark h, by rw [← eq_of_classify_nomark h]⟩

/-- No word spells two wire commands. -/
theorem decodeWire_of_spellsWire {w : WireWord} {i : Instr} (h : SpellsWire w i) : decodeWire w = i := by
  cases i with
  | cmdBurstRd =>
    rw [SpellsWire] at h
    simp [decodeWire, h, Laws.FieldsZero.classify_burstReadCmd]
  | cmdBurstWr b =>
    obtain ⟨hcmd, hdata⟩ := h
    simp [decodeWire, hcmd, hdata, Laws.FieldsZero.classify_burstWriteCmd]
  | cmdClkRd reg =>
    obtain ⟨hreg, hcmd⟩ := h
    simp [decodeWire, hcmd, classify_clockRead hreg]
  | cmdClkWr reg v =>
    obtain ⟨hreg, hcmd, hdata⟩ := h
    simp [decodeWire, hcmd, hdata, classify_clockWrite hreg]
  | cmdRamRd reg =>
    rw [SpellsWire] at h
    simp [decodeWire, h]
  | cmdRamWr reg v =>
    obtain ⟨hcmd, hdata⟩ := h
    simp [decodeWire, hcmd, hdata]
  | cmdNomark bits v =>
    obtain ⟨hcmd, hdata⟩ := h
    simp [decodeWire, hcmd, hdata]
  | _ => exact h.elim

theorem decode_wire_eq_ok_iff {w : WireWord} {i : Instr} : decode (.wire w) = .ok i ↔ SpellsWire w i := by
  refine ⟨fun h => ?_, fun h => congrArg Except.ok (decodeWire_of_spellsWire h)⟩
  cases h
  exact spellsWire_decodeWire w

/-! ## Well-formedness (R70, R102, R104) -/

/-- A CMD_NOMARK byte that reads has no data byte (log 6). -/
theorem wellFormed_cmdNomark_iff {bits : BitVec 7} {v : Byte} :
    (Instr.cmdNomark bits v).wellFormed = true ↔ nomarkData (nomarkByte bits) v = v := by
  rw [Instr.wellFormed, nomarkData, cmdRdBit_nomarkByte]
  cases bits.getLsbD 0 with
  | false => exact ⟨fun _ => rfl, fun _ => rfl⟩
  | true => exact beq_iff_eq.trans eq_comm

theorem nomarkData_nomarkData (cmd v : Byte) : nomarkData cmd (nomarkData cmd v) = nomarkData cmd v := by
  unfold nomarkData
  split <;> rfl

theorem wellFormed_of_spells {w : ReqWord} {i : Instr} (h : Spells w i) : i.wellFormed = true := by
  cases i with
  | cmdClkRd reg => exact h.elim
  | cmdClkWr reg v => exact h.elim
  | cmdNomark bits v => exact h.elim
  | _ => rfl

theorem wellFormed_of_spellsWire {w : WireWord} {i : Instr} (h : SpellsWire w i) : i.wellFormed = true := by
  cases i with
  | cmdClkRd reg => exact bne_iff_ne.2 h.1
  | cmdClkWr reg v => exact bne_iff_ne.2 h.1
  | cmdNomark bits v =>
    obtain ⟨-, rfl⟩ := h
    exact wellFormed_cmdNomark_iff.2 (nomarkData_nomarkData _ _)
  | _ => rfl

/-- Settles O5: what a word spells has no clock register 31, and no data byte with a CMD_NOMARK byte that reads. -/
theorem decodedIsWellFormed : Obligations.DecodedIsWellFormed := by
  intro p i h
  cases p with
  | req w => exact wellFormed_of_spells (decode_req_eq_ok_iff.1 h).2
  | wire w => exact wellFormed_of_spellsWire (decode_wire_eq_ok_iff.1 h)

/-! ## There and back (R98) -/

/-- The word the encoder makes of a well-formed wire command spells it. -/
theorem encode_wire_spellsWire {i : Instr} {w : WireWord} (hwf : i.wellFormed = true) (h : encode i = .wire w) :
    SpellsWire w i := by
  cases i with
  | cmdBurstRd =>
    obtain rfl := Presented.wire.inj h
    exact wireCmd_wireWord _ _
  | cmdBurstWr b =>
    obtain rfl := Presented.wire.inj h
    exact ⟨wireCmd_wireWord _ _, wireD_wireWord _ _⟩
  | cmdClkRd reg =>
    obtain rfl := Presented.wire.inj h
    exact ⟨bne_iff_ne.1 hwf, wireCmd_wireWord _ _⟩
  | cmdClkWr reg v =>
    obtain rfl := Presented.wire.inj h
    exact ⟨bne_iff_ne.1 hwf, wireCmd_wireWord _ _, wireV_wireWord _ _⟩
  | cmdRamRd reg =>
    obtain rfl := Presented.wire.inj h
    exact wireCmd_wireWord _ _
  | cmdRamWr reg v =>
    obtain rfl := Presented.wire.inj h
    exact ⟨wireCmd_wireWord _ _, wireV_wireWord _ _⟩
  | cmdNomark bits v =>
    obtain rfl := Presented.wire.inj h
    rw [wellFormed_cmdNomark_iff] at hwf
    exact ⟨wireCmd_wireWord _ _, by rw [wireV_wireWord, hwf]⟩
  | _ => cases h

theorem wireWord_of_fields {w : WireWord} {c : Byte} {d : BitVec 64} (hc : wireCmd w = c) (hd : wireD w = d) :
    Presented.wire (wireWord c d) = .wire w := by
  rw [← hc, ← hd, wireWord_fields]

/-- A word whose unused data bytes are 0 is the encoding of the wire command it spells: its data field is the one that
the class of its command byte uses. -/
theorem encode_of_spellsWire {w : WireWord} {i : Instr} (h : SpellsWire w i)
    (hz : ignoredFieldsZero (.wire w) = true) : encode i = .wire w := by
  rw [ignoredFieldsZero] at hz
  cases i with
  | cmdBurstRd =>
    rw [h, Laws.FieldsZero.classify_burstReadCmd] at hz
    exact wireWord_of_fields h (beq_iff_eq.1 hz)
  | cmdBurstWr b =>
    obtain ⟨hcmd, hdata⟩ := h
    exact wireWord_of_fields hcmd hdata
  | cmdClkRd reg =>
    obtain ⟨hreg, hcmd⟩ := h
    rw [hcmd, classify_clockRead hreg] at hz
    exact wireWord_of_fields hcmd (beq_iff_eq.1 hz)
  | cmdClkWr reg v =>
    obtain ⟨hreg, hcmd, rfl⟩ := h
    rw [hcmd, classify_clockWrite hreg] at hz
    exact wireWord_of_fields hcmd (beq_iff_eq.1 hz)
  | cmdRamRd reg =>
    rw [h, classify_ramRead] at hz
    exact wireWord_of_fields h (beq_iff_eq.1 hz)
  | cmdRamWr reg v =>
    obtain ⟨hcmd, rfl⟩ := h
    rw [hcmd, classify_ramWrite] at hz
    exact wireWord_of_fields hcmd (beq_iff_eq.1 hz)
  | cmdNomark bits v =>
    obtain ⟨hcmd, rfl⟩ := h
    rw [hcmd, classify_nomarkByte] at hz
    exact wireWord_of_fields hcmd (beq_iff_eq.1 hz)
  | _ => exact h.elim

/-- Settles O3: both directions go through what the decoder accepts, a word that spells the wire command. -/
theorem wireEncodingRoundTrip : Obligations.WireEncodingRoundTrip := by
  refine ⟨fun i w hwf h => decode_wire_eq_ok_iff.2 (encode_wire_spellsWire hwf h), fun w i h hz => ?_⟩
  exact encode_of_spellsWire (decode_wire_eq_ok_iff.1 h) hz

end Sys2Proof.Machine
end

section
/-! PROOFS. What a request runs (10_state.md R59), and the invariants: the line invariants (10_state.md R56, R57), the
lines as what the trace since reset leaves (R20) and the wire discipline (R58, R137, R245) are kept by every step and
hold at reset. -/

namespace Sys2Proof.Machine

/-! ## What a request runs (R59, R170) -/

theorem sequenceOf_wrbyte_eq_ok {v : Byte} {rel : Bool} {s : State} {ops : List SeqOp}
    (h : sequenceOf (.wrbyte v rel) s = .ok ops) : OpenFor .output s ∧ ops = wrbyteOps v rel := by
  cases hf : busFault .output s.lines with
  | none =>
    obtain ⟨hce, hdir⟩ := busFault_eq_none.1 hf
    exact ⟨⟨hce, hdir⟩, Except.ok.inj (h.symm.trans (sequenceOf_wrbyte hce hdir))⟩
  | some k => cases (sequenceOf_wrbyte_of_fault hf).symm.trans h

theorem sequenceOf_rdbyte_eq_ok {s : State} {ops : List SeqOp} (h : sequenceOf .rdbyte s = .ok ops) :
    OpenFor .input s ∧ ops = rdbyteOps := by
  cases hf : busFault .input s.lines with
  | none =>
    obtain ⟨hce, hdir⟩ := busFault_eq_none.1 hf
    exact ⟨⟨hce, hdir⟩, Except.ok.inj (h.symm.trans (sequenceOf_rdbyte hce hdir))⟩
  | some k => cases (sequenceOf_rdbyte_of_fault hf).symm.trans h

/-- The lists of operations a request can run from `s`: a primitive whose checks pass, a session, or BURSTRD's. -/
inductive RequestOps (s : State) : List SeqOp → Prop
  | beginSession : RequestOps s (beginOps s.lines.ce)
  | endSession : RequestOps s endOps
  | wrbyte (v : Byte) (rel : Bool) (h : OpenFor .output s) : RequestOps s (wrbyteOps v rel)
  | rdbyte (h : OpenFor .input s) : RequestOps s rdbyteOps
  | read (cmd : Byte) : RequestOps s (readSession s.lines.ce cmd)
  | write (cmd v : Byte) : RequestOps s (writeSession s.lines.ce cmd v)
  | burstRead (cmd : Byte) : RequestOps s (burstReadSession s.lines.ce cmd)
  | burstWrite (cmd : Byte) (b : Bytes8) : RequestOps s (burstWriteSession s.lines.ce cmd b)
  | burstrd : RequestOps s (burstrdOps s.lines.ce)

theorem requestOps_of_sequenceOf {i : Instr} {s : State} {ops : List SeqOp} (hseq : sequenceOf i s = .ok ops) :
    RequestOps s ops := by
  cases i with
  | wrbyte v rel =>
    obtain ⟨hopen, rfl⟩ := sequenceOf_wrbyte_eq_ok hseq
    exact .wrbyte v rel hopen
  | rdbyte =>
    obtain ⟨hopen, rfl⟩ := sequenceOf_rdbyte_eq_ok hseq
    exact .rdbyte hopen
  | cmdNomark bits v =>
    cases hseq
    rw [nomarkSession]
    split
    · exact .read _
    · exact .write _ v
  | beginSession => cases hseq; exact .beginSession
  | endSession => cases hseq; exact .endSession
  | rdreg a => cases hseq; exact .read _
  | wrreg a v => cases hseq; exact .write _ v
  | burstrd => cases hseq; exact .burstrd
  | burstwr b => cases hseq; exact .burstWrite _ b
  | cmdBurstRd => cases hseq; exact .burstRead _
  | cmdBurstWr b => cases hseq; exact .burstWrite _ b
  | cmdClkRd reg => cases hseq; exact .read _
  | cmdClkWr reg v => cases hseq; exact .write _ v
  | cmdRamRd reg => cases hseq; exact .read _
  | cmdRamWr reg v => cases hseq; exact .write _ v

/-! ## What every request keeps, told by its primitives (R150, R170) -/

/-- A property of the lines and the trace that holds at reset and is kept by BEGIN and END in every phase, by WRBYTE and
RDBYTE where their checks pass. -/
structure KeptByPrimitives (P : Lines → PadTrace → Prop) : Prop where
  reset : P resetLines []
  beginSession {l : Lines} {t : PadTrace} (h : P l t) :
    P { ce := true, sclk := false, sclkOe := true, ioDir := .output, ioOut := l.ioOut } (t ++ beginTrace l.ce)
  endSession {l : Lines} {t : PadTrace} (h : P l t) : P { l with ce := false } (t ++ endTrace)
  wrbyte (v : Byte) (rel : Bool) {l : Lines} {t : PadTrace} (hce : l.ce = true) (hdir : l.ioDir = .output) (h : P l t) :
    P { l with sclk := rel, ioDir := if rel then .input else l.ioDir, ioOut := bitOf v 7 } (t ++ wrbyteTrace v rel)
  rdbyte (x : Byte) {l : Lines} {t : PadTrace} (hce : l.ce = true) (hdir : l.ioDir = .input) (h : P l t) :
    P { l with sclk := false } (t ++ rdbyteTrace x)

/-- The property holds of a state, in an open session with the data line in direction `d`. -/
def HoldsOpen (P : Lines → PadTrace → Prop) (d : IoDir) (s : State) : Prop := OpenFor d s ∧ P s.lines s.trace

/-- A ready block has an idle sequencer (R59), and the property holds, or will when the running request completes. -/
def HoldsAtRest (P : Lines → PadTrace → Prop) (s : State) : Prop :=
  (s.busy = false → s.seq = []) ∧ P (complete s).lines (complete s).trace

theorem holdsAtRest_of_idle {P : Lines → PadTrace → Prop} {s : State} (hseq : s.seq = [])
    (h : P s.lines s.trace) : HoldsAtRest P s :=
  ⟨fun _ => hseq, by rwa [complete_of_idle hseq]⟩

theorem HoldsAtRest.of_ready {P : Lines → PadTrace → Prop} {s : State} (h : HoldsAtRest P s)
    (hready : s.busy = false) : s.seq = [] ∧ P s.lines s.trace := by
  obtain ⟨hidle, hrest⟩ := h
  have hseq := hidle hready
  exact ⟨hseq, by rwa [complete_of_idle hseq] at hrest⟩

/-- What every item's operations keep, all of them one after the other keep. -/
theorem runOps_flatMap_keeps {α : Type} {Q : State → Prop} {f : α → List SeqOp}
    (hkeep : ∀ k s, Q s → Q (runOps (f k) s)) (ks : List α) {s : State} (hs : Q s) : Q (runOps (ks.flatMap f) s) := by
  induction ks generalizing s with
  | nil => exact hs
  | cons k ks ih =>
    rw [List.flatMap_cons, runOps_append]
    exact ih (hkeep k s hs)

section
variable {P : Lines → PadTrace → Prop} (hP : KeptByPrimitives P)
include hP

theorem holds_beginOps {s : State} (h : P s.lines s.trace) : HoldsOpen P .output (runOps (beginOps s.lines.ce) s) := by
  refine ⟨openFor_beginOps _ s, ?_⟩
  rw [runOps_beginOps]
  exact hP.beginSession h

theorem holds_endOps {s : State} (h : P s.lines s.trace) :
    P (runOps endOps s).lines (runOps endOps s).trace := by
  rw [runOps_endOps]
  exact hP.endSession h

theorem holds_wrbyteOps (v : Byte) (rel : Bool) {s : State} (h : HoldsOpen P .output s) :
    HoldsOpen P (transferDir rel) (runOps (wrbyteOps v rel) s) := by
  obtain ⟨hopen, hs⟩ := h
  refine ⟨openFor_wrbyteOps v rel hopen, ?_⟩
  rw [runOps_wrbyteOps]
  exact hP.wrbyte v rel hopen.1 hopen.2 hs

theorem holds_rdbyteOps {s : State} (h : HoldsOpen P .input s) : HoldsOpen P .input (runOps rdbyteOps s) := by
  obtain ⟨hopen, hs⟩ := h
  obtain ⟨x, -, hops⟩ := runOps_rdbyteOps s
  refine ⟨openFor_rdbyteOps hopen, ?_⟩
  rw [hops]
  exact hP.rdbyte x hopen.1 hopen.2 hs

/-- Copying RDATA to the burst buffer touches neither the lines nor the trace. -/
theorem holds_burstByte (k : Fin 8) {s : State} (h : HoldsOpen P .input s) :
    HoldsOpen P .input (runOps (rdbyteOps ++ [.bufferByte k]) s) := by
  obtain ⟨⟨hce, hdir⟩, hs⟩ := holds_rdbyteOps hP h
  rw [runOps_append, runOps_cons, runOps_nil, runOp_bufferByte]
  exact ⟨⟨hce, hdir⟩, hs⟩

/-- A session keeps what its transfers keep while it is open. -/
theorem holds_session {α : Type} {f : α → List SeqOp} {rel : Bool}
    (hkeep : ∀ k s, HoldsOpen P (transferDir rel) s → HoldsOpen P (transferDir rel) (runOps (f k) s))
    (cmd : Byte) (ks : List α) {s t : State} (h : P s.lines s.trace)
    (ht : t = runOps (beginOps s.lines.ce ++ wrbyteOps cmd rel ++ ks.flatMap f ++ endOps) s) : P t.lines t.trace := by
  rw [ht, runOps_append, runOps_append, runOps_append]
  have hcmd := holds_wrbyteOps hP cmd rel (holds_beginOps hP h)
  exact holds_endOps hP (runOps_flatMap_keeps hkeep ks hcmd).2

theorem holds_readSession (cmd : Byte) {s : State} (h : P s.lines s.trace) :
    P (runOps (readSession s.lines.ce cmd) s).lines (runOps (readSession s.lines.ce cmd) s).trace :=
  holds_session (rel := true) (f := fun _ => rdbyteOps) hP (fun _ _ hs => holds_rdbyteOps hP hs) cmd [()] h rfl

theorem holds_writeSession (cmd v : Byte) {s : State} (h : P s.lines s.trace) :
    P (runOps (writeSession s.lines.ce cmd v) s).lines (runOps (writeSession s.lines.ce cmd v) s).trace :=
  holds_session (rel := false) (f := fun _ => wrbyteOps v false) hP (fun _ _ hs => holds_wrbyteOps hP v false hs) cmd [()]
    h rfl

theorem holds_burstReadSession (cmd : Byte) {s : State} (h : P s.lines s.trace) :
    P (runOps (burstReadSession s.lines.ce cmd) s).lines (runOps (burstReadSession s.lines.ce cmd) s).trace :=
  holds_session (rel := true) hP (fun k _ hs => holds_burstByte hP k hs) cmd indices8 h rfl

theorem holds_burstWriteSession (cmd : Byte) (b : Bytes8) {s : State} (h : P s.lines s.trace) :
    P (runOps (burstWriteSession s.lines.ce cmd b) s).lines (runOps (burstWriteSession s.lines.ce cmd b) s).trace :=
  holds_session (rel := false) hP (fun k _ hs => holds_wrbyteOps hP (byteAt b k) false hs) cmd indices8 h rfl

/-- Every request is made of the primitives, so it keeps what they keep. -/
theorem holds_runOps_sequenceOf {i : Instr} {s : State} {ops : List SeqOp} (hseq : sequenceOf i s = .ok ops)
    (h : P s.lines s.trace) : P (runOps ops s).lines (runOps ops s).trace := by
  cases requestOps_of_sequenceOf hseq with
  | beginSession => exact (holds_beginOps hP h).2
  | endSession => exact holds_endOps hP h
  | wrbyte v rel hopen => exact (holds_wrbyteOps hP v rel ⟨hopen, h⟩).2
  | rdbyte hopen => exact (holds_rdbyteOps hP ⟨hopen, h⟩).2
  | read cmd => exact holds_readSession hP cmd h
  | write cmd v => exact holds_writeSession hP cmd v h
  | burstRead cmd => exact holds_burstReadSession hP cmd h
  | burstWrite cmd b => exact holds_burstWriteSession hP cmd b h
  | burstrd =>
    rw [burstrdOps, runOps_append]
    exact holds_burstReadSession hP burstReadCmd h

/-! ## And so does every step -/

/-- An accepted request completes with the property, from a ready block that has it. -/
theorem holds_complete_accept {i : Instr} {s : State} {ops : List SeqOp} (hseq : sequenceOf i s = .ok ops)
    (h : P s.lines s.trace) : P (complete (accept ops s)).lines (complete (accept ops s)).trace := by
  rw [complete_accept, runOps_accept]
  exact holds_runOps_sequenceOf hP hseq h

/-- The induction step of every invariant of this kind, by the cases of `step_cases`. -/
theorem holdsAtRest_step {s t : State} (h : HoldsAtRest P s) (hstep : step s = .next t) : HoldsAtRest P t := by
  obtain ⟨-, rest, -, rfl⟩ | ⟨-, hcase⟩ := step_cases hstep
  · exact holdsAtRest_of_idle rfl hP.reset
  obtain ⟨-, rfl⟩ | ⟨hb, rest, rfl⟩ | ⟨hb, k, rest, rfl⟩ | ⟨hb, i, ops, rest, hseq, rfl⟩ |
    ⟨hb, i, ops, n, rest, hseq, rfl⟩ := hcase
  · exact holdsAtRest_of_idle (complete_seq s) h.2
  · exact holdsAtRest_of_idle (h.of_ready hb).1 (h.of_ready hb).2
  · exact holdsAtRest_of_idle (h.of_ready hb).1 (h.of_ready hb).2
  · exact holdsAtRest_of_idle (complete_seq _) (holds_complete_accept hP hseq (h.of_ready hb).2)
  · refine ⟨fun hready => absurd (hready.symm.trans (runMidway_busy _ _ _)) Bool.false_ne_true, ?_⟩
    rw [complete_runMidway]
    exact holds_complete_accept hP hseq (h.of_ready hb).2

end

/-! ## The line invariants (R56, R57) -/

theorem linesOk_of_closed {l : Lines} (h : l.ce = false) : LinesOk l :=
  ⟨fun hce => absurd (h.symm.trans hce) Bool.false_ne_true, fun hce => absurd (h.symm.trans hce) Bool.false_ne_true⟩

theorem linesOk_keptByPrimitives : KeptByPrimitives fun l _ => LinesOk l where
  reset := linesOk_of_closed rfl
  beginSession _ := ⟨fun _ _ => rfl, fun _ => rfl⟩
  endSession _ := linesOk_of_closed rfl
  wrbyte v rel _ _ _ _ h := by
    cases rel with
    | false => exact ⟨fun _ _ => rfl, h.2⟩
    | true => exact ⟨fun _ hd => (nomatch hd), h.2⟩
  rdbyte _ _ _ _ _ h := ⟨fun _ _ => rfl, h.2⟩

/-- Settles O47: BEGIN drives the clock low, a byte that keeps the data line driven ends with it low, and only a reset
stops driving it. -/
theorem lineInvariantsKept : Obligations.LineInvariantsKept :=
  fun _ _ h hstep => holdsAtRest_step linesOk_keptByPrimitives h hstep

/-! ## The trace and the lines (R20) -/

theorem traceShowsLines_runOps (ops : List SeqOp) {s : State} (h : TraceShowsLines s) :
    TraceShowsLines (runOps ops s) := by
  obtain ⟨u, htrace, hlines⟩ := runOps_trace ops s
  rw [TraceShowsLines, htrace, hlines, replay_append, h]

/-- Settles O48: the lines follow the events that a step's operations append, and a reset starts both anew. -/
theorem traceShowsLinesKept : Obligations.TraceShowsLinesKept := by
  intro s t h hstep
  obtain ⟨-, rest, -, rfl⟩ | ⟨-, hcase⟩ := step_cases hstep
  · rfl
  obtain ⟨-, rfl⟩ | ⟨-, rest, rfl⟩ | ⟨-, k, rest, rfl⟩ | ⟨-, i, ops, rest, -, rfl⟩ | ⟨-, i, ops, n, rest, -, rfl⟩ := hcase
  · rw [complete_eq]
    exact traceShowsLines_runOps s.seq h
  · exact h
  · exact h
  · rw [runRequest_eq]
    exact traceShowsLines_runOps ops (s := accept [] { s with host := rest }) h
  · rw [runMidway_eq]
    exact traceShowsLines_runOps _ (s := accept [] { s with host := rest }) h

/-! ## The wire discipline (R58, R137, R245) -/

/-- The wire at rest: no T_CE_OFF is owed (R245). -/
def restWire (l : Lines) : Wire := { lines := l, offOwed := false }

/-- The events of `t` may stand after the lines `l`, and leave the wire at rest with the lines `l'`. -/
def Disciplined (l : Lines) (t : PadTrace) (l' : Lines) : Prop :=
  traceOk t (restWire l) = true ∧ wireAfter t (restWire l) = restWire l'

theorem Disciplined.append {l l' l'' : Lines} {t u : PadTrace} (h : Disciplined l t l') (h' : Disciplined l' u l'') :
    Disciplined l (t ++ u) l'' := by
  obtain ⟨hok, hafter⟩ := h
  obtain ⟨hok', hafter'⟩ := h'
  refine ⟨?_, ?_⟩
  · rw [traceOk_append, hok, hafter, hok', Bool.and_self]
  · rw [wireAfter_append, hafter, hafter']

/-- BEGIN in an open session closes it first, and holds T_CE_OFF (R122). -/
theorem disciplined_beginTrace (l : Lines) : Disciplined l (beginTrace l.ce)
    { ce := true, sclk := false, sclkOe := true, ioDir := .output, ioOut := l.ioOut } := by
  obtain ⟨ce, sclk, oe, dir, out⟩ := l
  cases ce <;> exact ⟨rfl, rfl⟩

theorem disciplined_endTrace (l : Lines) : Disciplined l endTrace { l with ce := false } := ⟨rfl, rfl⟩

/-- In phase WRITE with the clock driven, each bit is driven with the clock low, and a release comes with the clock
high. -/
theorem disciplined_wrbyteTrace (v : Byte) (rel : Bool) {l : Lines} (hok : LinesOk l) (hce : l.ce = true)
    (hdir : l.ioDir = .output) : Disciplined l (wrbyteTrace v rel)
      { l with sclk := rel, ioDir := if rel then .input else l.ioDir, ioOut := bitOf v 7 } := by
  have hsclk := hok.1 hce hdir
  have hoe := hok.2 hce
  obtain ⟨ce, sclk, oe, dir, out⟩ := l
  subst hce hdir hsclk hoe
  cases rel <;> exact ⟨rfl, rfl⟩

/-- With the data line released and the clock driven, each bit is sampled with the clock low. -/
theorem disciplined_rdbyteTrace (x : Byte) {l : Lines} (hok : LinesOk l) (hce : l.ce = true) (hdir : l.ioDir = .input) :
    Disciplined l (rdbyteTrace x) { l with sclk := false } := by
  have hoe := hok.2 hce
  obtain ⟨ce, sclk, oe, dir, out⟩ := l
  subst hce hdir hoe
  exact ⟨rfl, rfl⟩

/-- The lines meet their invariants, and the trace since reset is disciplined and leaves them. -/
def WireOk (l : Lines) (t : PadTrace) : Prop := LinesOk l ∧ Disciplined resetLines t l

theorem wireOk_keptByPrimitives : KeptByPrimitives WireOk where
  reset := ⟨linesOk_keptByPrimitives.reset, rfl, rfl⟩
  beginSession h := ⟨linesOk_keptByPrimitives.beginSession (t := []) h.1, h.2.append (disciplined_beginTrace _)⟩
  endSession h := ⟨linesOk_keptByPrimitives.endSession (t := []) h.1, h.2.append (disciplined_endTrace _)⟩
  wrbyte v rel _ _ hce hdir h := ⟨linesOk_keptByPrimitives.wrbyte (t := []) v rel hce hdir h.1,
    h.2.append (disciplined_wrbyteTrace v rel h.1 hce hdir)⟩
  rdbyte x _ _ hce hdir h := ⟨linesOk_keptByPrimitives.rdbyte (t := []) x hce hdir h.1,
    h.2.append (disciplined_rdbyteTrace x h.1 hce hdir)⟩

theorem disciplined_reset_iff {l : Lines} {t : PadTrace} : Disciplined resetLines t l ↔
    replay t resetLines = l ∧ traceOk t resetWire = true ∧ (wireAfter t resetWire).offOwed = false := by
  have hlines : (wireAfter t resetWire).lines = replay t resetLines := wireAfter_lines t resetWire
  rw [← hlines, show Disciplined resetLines t l ↔ traceOk t resetWire = true ∧ wireAfter t resetWire = restWire l from
    Iff.rfl, restWire, Wire.mk.injEq]
  tauto

theorem wireInv_iff {s : State} : WireInv s ↔ HoldsAtRest WireOk s := by
  rw [WireInv, HoldsAtRest, WireOk, disciplined_reset_iff]
  exact and_assoc

/-- Settles O49: each primitive's events may stand where its checks and the line invariants put them, so the trace of
every request may. -/
theorem wireDisciplineKept : Obligations.WireDisciplineKept :=
  fun _ _ h hstep => wireInv_iff.2 (holdsAtRest_step wireOk_keptByPrimitives (wireInv_iff.1 h) hstep)

/-- Settles O50: every invariant holds of the reset lines and the empty trace. -/
theorem resetMeetsInvariants : Obligations.ResetMeetsInvariants :=
  ⟨holdsAtRest_of_idle (P := fun l _ => LinesOk l) rfl linesOk_keptByPrimitives.reset, rfl,
    wireInv_iff.2 (holdsAtRest_of_idle rfl wireOk_keptByPrimitives.reset)⟩

end Sys2Proof.Machine
end

section
/-! PROOFS. The step and the request channel (10_state.md R31, R32; 70_reset_and_hazards.md R234, R243, R246): what
runs next, what is held while a request runs, a request seen midway (log 12), and a reset at any event. -/

namespace Sys2Proof.Machine

/-! ## What runs next (R29, R80, R213) -/

theorem takeRequest_of_decode_ok {p : Presented} {i : Instr} (h : decode p = .ok i) (s : State) :
    takeRequest p s = exec i s := by
  rw [takeRequest, h]

theorem takeMidway_of_decode_error {p : Presented} {e : DecodeError} (h : decode p = .error e) (n : Nat) (s : State) :
    takeMidway p n s = .next (raiseFault .ill s) := by
  rw [takeMidway, h]

theorem takeMidway_of_fault {p : Presented} {i : Instr} {s : State} {k : FaultKind} (h : decode p = .ok i)
    (hseq : sequenceOf i s = .error k) (n : Nat) : takeMidway p n s = .next (raiseFault k s) := by
  simp only [takeMidway, h, hseq]

theorem takeMidway_of_ok {p : Presented} {i : Instr} {s : State} {ops : List SeqOp} (h : decode p = .ok i)
    (hseq : sequenceOf i s = .ok ops) (n : Nat) : takeMidway p n s = .next (runMidway ops n s) := by
  simp only [takeMidway, h, hseq]

theorem resetNow_of_present {s : State} {p : Presented} {rest : List HostAction} (h : s.host = .present p :: rest) :
    resetNow s = false := by
  rw [resetNow, h]
  rfl

theorem step_present {s : State} {p : Presented} {rest : List HostAction} (hready : s.busy = false)
    (hhost : s.host = .present p :: rest) : step s = takeRequest p { s with host := rest } := by
  rw [step_of_ready hready, nextAction_present hhost]

theorem step_presentMidway {s : State} (hready : s.busy = false) (p : Presented) (n : Nat) (rest : List HostAction) :
    step { s with host := .presentMidway p n :: rest } = takeMidway p n { s with host := rest } :=
  (step_of_ready (s := { s with host := .presentMidway p n :: rest }) hready).trans (nextAction_presentMidway rfl)

/-- Settles O11: a ready block takes the presented word off the channel and runs what it decodes to. -/
theorem stepRunsPresentedInstruction : Obligations.StepRunsPresentedInstruction := by
  intro s p i rest hready hhost hdecode
  rw [step_present hready hhost, takeRequest_of_decode_ok hdecode]

theorem exists_presented_of_decodeTableWord {nbits w : Nat} {i : Instr} (h : decodeTableWord nbits w = some i) :
    ∃ p, presentedOf nbits w = some p ∧ decode p = .ok i := by
  unfold decodeTableWord at h
  split at h
  · next p hp =>
    refine ⟨p, hp, ?_⟩
    cases hd : decode p with
    | error e => rw [hd] at h; cases h
    | ok j => rw [hd] at h; exact congrArg Except.ok (Option.some.inj h)
  · cases h

/-- Settles O12: the placed word is the next one presented, to a block made ready. -/
theorem placedWordRunsNext : Obligations.PlacedWordRunsNext := by
  intro s nbits w i h
  obtain ⟨p, hp, hdecode⟩ := exists_presented_of_decodeTableWord h
  rw [State.withFetchWord, hp]
  exact stepRunsPresentedInstruction (presentNext p s) p i s.host rfl rfl hdecode

theorem nextAction_nil {s : State} (h : s.host = []) : nextAction s = .next (idleCycle s) := by
  simp only [nextAction, h]

theorem nextAction_idle {s : State} {rest : List HostAction} (h : s.host = .idle :: rest) :
    nextAction s = .next (idleCycle { s with host := rest }) := by
  simp only [nextAction, h]

/-- Settles O13: with nothing presented the step is an idle cycle. -/
theorem idleBlockKeepsState : Obligations.IdleBlockKeepsState := by
  rintro s hready (hhost | ⟨rest, hhost⟩)
  · rw [step_of_ready hready, nextAction_nil hhost, idleCycle, hhost, List.tail_nil]
  · rw [step_of_ready hready, nextAction_idle hhost, idleCycle, hhost, List.tail_cons]

/-- A reset takes effect whether the block is busy or ready (R31). -/
theorem step_rst {s : State} {rest : List HostAction} (h : s.host = .rst :: rest) :
    step s = .next (applyReset { s with host := rest }) := by
  rw [step, hostStep, resetNow_iff.2 ⟨rest, h⟩, Bool.not_true, Bool.and_false, if_neg Bool.false_ne_true, nextAction, h]

/-- Settles O17: what a reset leaves does not look at what runs. -/
theorem resetAbortsRunningRequest : Obligations.ResetAbortsRunningRequest := fun _ _ h => step_rst h

/-! ## Requests that run (R243, R246) -/

theorem complete_host (s : State) : (complete s).host = s.host := by
  obtain ⟨-, -, -, -, -, -, -, -, hhost⟩ := runOps_frame s.seq s
  rw [complete_eq]
  exact hhost

/-- Settles O14: completing a request leaves the host's list as it is, so what was presented is still there. -/
theorem presentedRequestIsHeldWhileBusy : Obligations.PresentedRequestIsHeldWhileBusy := by
  intro s p i rest hbusy hhost hdecode
  have hheld : (respond (complete s)).host = s.host := complete_host s
  exact ⟨_, step_of_busy hbusy (resetNow_of_present hhost), rfl, rfl, complete_seq s, rfl, hheld,
    stepRunsPresentedInstruction _ p i rest rfl (hheld.trans hhost) hdecode⟩

/-! ## A request seen midway (log 12) -/

/-- Taking a request and looking at it midway finds it faulted, as the whole request does, or running. -/
theorem takeMidway_cases {p : Presented} {n : Nat} {s t : State} (h : takeMidway p n s = .next t) :
    (t.busy = false ∧ takeRequest p s = .next t) ∨
    (∃ i ops, decode p = .ok i ∧ sequenceOf i s = .ok ops ∧ t = runMidway ops n s) := by
  cases hd : decode p with
  | error e =>
    rw [takeMidway_of_decode_error hd] at h
    obtain rfl := Host.Outcome.next.inj h
    exact .inl ⟨rfl, by rw [takeRequest_of_decode_error hd, raiseFault_eq]⟩
  | ok i =>
    cases hs : sequenceOf i s with
    | error k =>
      rw [takeMidway_of_fault hd hs] at h
      obtain rfl := Host.Outcome.next.inj h
      exact .inl ⟨rfl, by rw [takeRequest_of_decode_ok hd, exec_of_error hs, raiseFault_eq]⟩
    | ok ops =>
      rw [takeMidway_of_ok hd hs] at h
      exact .inr ⟨i, ops, rfl, hs, (Host.Outcome.next.inj h).symm⟩

/-- Settles O15: what a request seen midway has still to do completes it to the state of the whole request. -/
theorem midwayRequestEqualsWholeRequest : Obligations.MidwayRequestEqualsWholeRequest := by
  intro s t p n rest hready hstep
  have hmid := (step_presentMidway hready p n rest).symm.trans hstep
  have hwhole := step_present (s := { s with host := .present p :: rest }) hready rfl
  obtain ⟨hdone, htake⟩ | ⟨i, ops, hdecode, hseq, rfl⟩ := takeMidway_cases hmid
  · exact ⟨fun hbusy => absurd (hdone.symm.trans hbusy) Bool.false_ne_true, fun _ => hwhole.trans htake⟩
  · refine ⟨fun hbusy hreset => ?_, fun hdone => absurd (hdone.symm.trans (runMidway_busy _ _ _)) Bool.false_ne_true⟩
    rw [step_of_busy hbusy hreset, complete_runMidway, hwhole, takeRequest_of_decode_ok hdecode, exec_eq_perform]
    exact (congrArg (perform · _) hseq).symm

/-- From index 3 up the read port shows functions of the image (R51). -/
theorem readReg_of_ge : ∀ index : BitVec 4, 3#4 ≤ index →
    readReg index ≠ .status ∧ readReg index ≠ .lines ∧ readReg index ≠ .rdata := by
  decide

theorem readPort_of_ge {index : BitVec 4} (h : 3#4 ≤ index) {s t : State} (himg : t.img = s.img) (draw draw' : Byte) :
    readPort index draw t = readPort index draw' s := by
  obtain ⟨hstatus, hlines, hrdata⟩ := readReg_of_ge index h
  rw [readPort, readPort, himg]
  cases hreg : readReg index with
  | status => exact absurd hreg hstatus
  | lines => exact absurd hreg hlines
  | rdata => exact absurd hreg hrdata
  | _ => rfl

/-- Settles O16: a request seen midway has not written the image, and the registers from index 3 up show nothing else.
-/
theorem imageIsOldWhileBusy : Obligations.ImageIsOldWhileBusy := by
  intro s t p n rest hready hstep hbusy
  have hmid := (step_presentMidway hready p n rest).symm.trans hstep
  obtain ⟨hdone, -⟩ | ⟨i, ops, -, -, rfl⟩ := takeMidway_cases hmid
  · exact absurd (hdone.symm.trans hbusy) Bool.false_ne_true
  · have himg : (runMidway ops n { s with host := rest }).img = s.img := runMidway_img _ _ _
    exact ⟨himg, runMidway_imgValid _ _ _, fun index draw draw' h => readPort_of_ge h himg draw draw'⟩

/-! ## A reset at any event of a request (R234) -/

/-- Writing the image coincides with the response (R163): all that stands before it comes before the response. -/
theorem beforeResponse_commitImage {ops : List SeqOp} (h : SeqOp.commitImage ∉ ops) :
    beforeResponse (ops ++ [.commitImage]) = ops := by
  have hall : ∀ o ∈ ops, (!isCommit o) = true := by
    intro o ho
    cases o with
    | commitImage => exact absurd ho h
    | _ => rfl
  rw [beforeResponse, List.takeWhile_append_of_pos hall]
  exact List.append_nil ops

/-- The events of a request have all happened before its response: the image is written without one. -/
theorem runOps_beforeResponse_trace {i : Instr} {s : State} {ops : List SeqOp} (hseq : sequenceOf i s = .ok ops)
    (r : State) : (runOps (beforeResponse ops) r).trace = (runOps ops r).trace := by
  by_cases hi : i = .burstrd
  · subst hi
    cases hseq
    rw [burstrdOps, beforeResponse_commitImage (commitImage_not_mem_burstReadSession _ _), runOps_append, runOps_cons,
      runOps_nil, runOp_commitImage]
  · rw [beforeResponse_of_not_mem (commitImage_not_mem hi hseq)]

/-- Every cut of the events of a request is where it can be seen midway. -/
theorem exists_runMidway_trace {i : Instr} {s : State} {ops : List SeqOp} (hseq : sequenceOf i s = .ok ops)
    {u v : PadTrace} (h : (runOps ops s).trace = s.trace ++ (u ++ v)) :
    ∃ n, (runMidway ops n s).trace = s.trace ++ u := by
  rw [← runOps_beforeResponse_trace hseq] at h
  obtain ⟨n, hn⟩ := runOps_trace_cut (beforeResponse ops) s u v h
  exact ⟨n, by rw [runMidway_eq, runOps_accept]; exact hn⟩

theorem sequenceOf_withHost (i : Instr) (s : State) (q : List HostAction) :
    sequenceOf i { s with host := q } = sequenceOf i s := by
  cases i <;> rfl

theorem step_runMidway_rst {ops : List SeqOp} {n : Nat} {s : State} {rest : List HostAction}
    (h : s.host = .rst :: rest) : step (runMidway ops n s) = .next { State.reset with
      past := s.past ++ [(runMidway ops n s).trace], device := (runMidway ops n s).device, host := rest } := by
  obtain ⟨-, -, -, hpast, hhost⟩ := runMidway_frame ops n s
  rw [step_rst (hhost.trans h), applyReset, hpast]

/-- Settles O60: the cut is a state of the request seen midway, and the reset there finds the trace up to the cut. -/
theorem resetCutsTraceAtAnyEvent : Obligations.ResetCutsTraceAtAnyEvent := by
  intro s t p i rest u v hready hdecode hexec hok htrace
  obtain ⟨k, -, rfl⟩ | ⟨ops, hseq, rfl⟩ := exec_cases hexec
  · exact absurd hok.symm Bool.false_ne_true
  have hevents : (runOps ops { s with host := .rst :: rest }).trace = s.trace ++ (u ++ v) := by
    rw [runRequest_eq, runOps_accept] at htrace
    rw [runOps_withHost]
    exact htrace
  have hseq' := (sequenceOf_withHost i s (.rst :: rest)).trans hseq
  obtain ⟨n, hn⟩ := exists_runMidway_trace hseq' hevents
  refine ⟨n, _, ?_, runMidway_busy _ _ _, hn, ?_⟩
  · rw [step_presentMidway hready, takeMidway_of_ok hdecode hseq']
  · rw [step_runMidway_rst rfl, hn]

end Sys2Proof.Machine
end

section
/-! PROOFS. Bytes and sessions (40_bus_driver.md R75, R136; 41_register_protocol.md R55, R170 to R177): a byte read
from a device that presents it, the composites' end, and the wire commands as the sessions of their classes. -/

namespace Sys2Proof.Machine

/-- Settles O23: the byte that is sampled is the one the device presents, and no other has its bits. -/
theorem rdbyteReadsLeastSignificantFirst : Obligations.RdbyteReadsLeastSignificantFirst := by
  intro s x rest hopen hin hdevice
  obtain ⟨y, hy, hexec⟩ := exec_rdbyte_of_input hopen hin
  obtain rfl : y = x := sampledByte_scripted hy hdevice
  have hrest : s.device.drop 8 = rest := by rw [hdevice]; exact List.drop_left' (bitsOf_length y)
  exact ⟨_, hexec, rfl, hrest⟩

/-! ## Instructions by their sessions (R152, R155, R170) -/

theorem exec_of_readSession {i : Instr} {s : State} {cmd : Byte}
    (h : sequenceOf i s = .ok (readSession s.lines.ce cmd)) : ∃ x : Byte,
      SampledByte s (beginTrace s.lines.ce ++ wrbyteTrace cmd true) x ∧
      exec i s = .next (afterRead (sessionLines .input (bitOf cmd 7)) (readTrace s.lines.ce cmd x) x s) := by
  rw [exec_eq_perform, h]
  exact perform_readSession s.lines.ce cmd s

theorem exec_of_writeSession {i : Instr} {s : State} {cmd v : Byte}
    (h : sequenceOf i s = .ok (writeSession s.lines.ce cmd v)) :
    exec i s = .next (afterRequest (sessionLines .output (bitOf v 7)) (writeTrace s.lines.ce cmd v) s) := by
  rw [exec_eq_perform, h]
  exact perform_writeSession s.lines.ce cmd v s

theorem exec_of_burstWriteSession {i : Instr} {s : State} {cmd : Byte} {b : Bytes8}
    (h : sequenceOf i s = .ok (burstWriteSession s.lines.ce cmd b)) :
    exec i s = .next (afterRequest (sessionLines .output (bitOf b.b7 7)) (burstWriteTrace s.lines.ce cmd b) s) := by
  rw [exec_eq_perform, h]
  exact perform_burstWriteSession s.lines.ce cmd b s

/-- Two instructions that run the same operations are the same. -/
theorem exec_congr {i j : Instr} {s : State} (h : sequenceOf i s = sequenceOf j s) : exec i s = exec j s := by
  rw [exec_eq_perform, exec_eq_perform, h]

/-- Settles O33: each composite's session ends with select inactive, and touches no error bit. -/
theorem compositesEndIdleWithoutFault : Obligations.CompositesEndIdleWithoutFault := by
  rintro s i (⟨a, rfl⟩ | ⟨a, v, rfl⟩ | rfl | ⟨b, rfl⟩)
  · obtain ⟨x, -, hexec⟩ := rdregReadsRegister a s
    exact ⟨_, hexec, rfl, rfl, rfl, rfl, rfl⟩
  · exact ⟨_, wrregWritesRegister a v s, rfl, rfl, rfl, rfl, rfl⟩
  · obtain ⟨b, -, hexec⟩ := burstrdReadsImage s
    exact ⟨_, hexec, rfl, rfl, rfl, rfl, rfl⟩
  · exact ⟨_, burstwrWritesImage b s, rfl, rfl, rfl, rfl, rfl⟩

/-! ## Command bytes and the addresses that send them (R100, R151) -/

/-- Settles O7: the byte's fields read back, for each of the 128 combinations of area, register and read bit. -/
theorem commandByteLayout : Obligations.CommandByteLayout := by
  unfold Obligations.CommandByteLayout
  decide

theorem bitOf_cmdByte_mark (rc : Bool) (reg : BitVec 5) (rd : Bool) : bitOf (cmdByte rc reg rd) 7 = true :=
  (commandByteLayout rc reg rd).2.1

theorem bitOf_nomarkByte_mark (bits : BitVec 7) : bitOf (nomarkByte bits) 7 = false := by
  revert bits
  decide

theorem cmdRdBit_cmdRd (a : Byte) : cmdRdBit (cmdRd a) = true := bitOf_cmdRd a 0

theorem cmdRdBit_cmdWr (a : Byte) : cmdRdBit (cmdWr a) = false := bitOf_cmdWr a 0

/-- The command byte of an address keeps its mark, area and register: only bit 0 is set or cleared. -/
theorem cmdRd_eq_cmdByte {a : Byte} (h : cmdMark a = true) : cmdRd a = cmdByte (cmdRc a) (cmdReg a) true := by
  revert a
  decide

theorem cmdWr_eq_cmdByte {a : Byte} (h : cmdMark a = true) : cmdWr a = cmdByte (cmdRc a) (cmdReg a) false := by
  revert a
  decide

/-! ## The wire commands by class (R171 to R177) -/

/-- The read command of an area (R171, R173) and the write command (R172, R174). -/
theorem sequenceOf_readCommand (rc : Bool) (reg : BitVec 5) (s : State) :
    sequenceOf (if rc then .cmdRamRd reg else .cmdClkRd reg) s =
      .ok (readSession s.lines.ce (cmdByte rc reg true)) := by
  cases rc <;> rfl

theorem sequenceOf_writeCommand (rc : Bool) (reg : BitVec 5) (v : Byte) (s : State) :
    sequenceOf (if rc then .cmdRamWr reg v else .cmdClkWr reg v) s =
      .ok (writeSession s.lines.ce (cmdByte rc reg false) v) := by
  cases rc <;> rfl

/-- Settles O36: the read command of either area is the session that reads one byte, and the RDREG of an address with
its area and register sends its byte. -/
theorem wireReadCommands : Obligations.WireReadCommands := by
  intro s rc reg _
  refine ⟨?_, fun a hmark hrc hreg => ?_⟩
  · have hsession := exec_of_readSession (sequenceOf_readCommand rc reg s)
    rwa [bitOf_cmdByte_mark] at hsession
  · refine exec_congr (Eq.trans ?_ (sequenceOf_readCommand rc reg s).symm)
    rw [sequenceOf, cmdRd_eq_cmdByte hmark, hrc, hreg]

/-- Settles O37: the same for the write commands and the session that writes one byte. -/
theorem wireWriteCommands : Obligations.WireWriteCommands := by
  intro s rc reg v _
  refine ⟨exec_of_writeSession (sequenceOf_writeCommand rc reg v s), fun a hmark hrc hreg => ?_⟩
  refine exec_congr (Eq.trans ?_ (sequenceOf_writeCommand rc reg v s).symm)
  rw [sequenceOf, cmdWr_eq_cmdByte hmark, hrc, hreg]

theorem sequenceOf_cmdNomark_of_read {bits : BitVec 7} (h : cmdRdBit (nomarkByte bits) = true) (v : Byte) (s : State) :
    sequenceOf (.cmdNomark bits v) s = .ok (readSession s.lines.ce (nomarkByte bits)) := by
  rw [sequenceOf, nomarkSession, if_pos h]

theorem sequenceOf_cmdNomark_of_write {bits : BitVec 7} (h : cmdRdBit (nomarkByte bits) = false) (v : Byte)
    (s : State) : sequenceOf (.cmdNomark bits v) s = .ok (writeSession s.lines.ce (nomarkByte bits) v) := by
  rw [sequenceOf, nomarkSession, if_neg (Bool.eq_false_iff.1 h)]

/-- Settles O38: bit 0 of the byte picks the session, and it is set in what RDREG sends and clear in what WRREG sends.
-/
theorem nomarkCommand : Obligations.NomarkCommand := by
  intro s bits v
  rw [← cmdRdBit_nomarkByte]
  refine ⟨fun hread => ?_, fun hwrite => exec_of_writeSession (sequenceOf_cmdNomark_of_write hwrite v s),
    fun a _ => ⟨fun hbyte => ?_, fun hbyte => ?_⟩⟩
  · have hsession := exec_of_readSession (sequenceOf_cmdNomark_of_read hread v s)
    rwa [bitOf_nomarkByte_mark] at hsession
  · have hread : cmdRdBit (nomarkByte bits) = true := by rw [hbyte, cmdRdBit_cmdRd]
    refine exec_congr (Eq.trans ?_ (sequenceOf_cmdNomark_of_read hread v s).symm)
    rw [sequenceOf, hbyte]
  · have hwrite : cmdRdBit (nomarkByte bits) = false := by rw [hbyte, cmdRdBit_cmdWr]
    refine exec_congr (Eq.trans ?_ (sequenceOf_cmdNomark_of_write hwrite v s).symm)
    rw [sequenceOf, hbyte]

/-- The two addresses of index 31 send the burst command bytes (R70). -/
theorem cmdRd_eq_burstReadCmd {a : Byte} (h : a = 0xBE ∨ a = 0xBF) : cmdRd a = burstReadCmd := by
  obtain rfl | rfl := h <;> rfl

theorem cmdWr_eq_burstWriteCmd {a : Byte} (h : a = 0xBE ∨ a = 0xBF) : cmdWr a = burstWriteCmd := by
  obtain rfl | rfl := h <;> rfl

/-- Settles O39: the burst commands are the burst sessions, on which BURSTRD alone writes the image. -/
theorem burstCommands : Obligations.BurstCommands := by
  intro s b v
  obtain ⟨t, ht, hcommand, hrequest⟩ := perform_burstReadSession s.lines.ce burstReadCmd s
  refine ⟨⟨t, ht, (exec_eq_perform .cmdBurstRd s).trans hcommand, (exec_eq_perform .burstrd s).trans hrequest⟩,
    exec_of_burstWriteSession rfl, exec_congr rfl, fun a ha => ?_, fun a ha => ?_⟩
  · have hseq : sequenceOf (.rdreg a) s = .ok (readSession s.lines.ce burstReadCmd) := by
      rw [sequenceOf, cmdRd_eq_burstReadCmd ha]
    obtain ⟨x, -, hexec⟩ := exec_of_readSession hseq
    exact ⟨x, hexec⟩
  · have hseq : sequenceOf (.wrreg a v) s = .ok (writeSession s.lines.ce burstWriteCmd v) := by
      rw [sequenceOf, cmdWr_eq_burstWriteCmd ha]
    exact exec_of_writeSession hseq

end Sys2Proof.Machine
end

section
/-! PROOFS. Whole-machine rules: every request ends (70_reset_and_hazards.md R252), what no request writes
(10_state.md R41, R42), and what no step but a reset clears or shortens (10_state.md R37, R43; 00_scope.md R20). -/

namespace Sys2Proof.Machine

/-! ## Every request ends (R205, R252) -/

theorem runOp_trace_length (o : SeqOp) (s : State) : (runOp o s).trace.length ≤ s.trace.length + 1 := by
  obtain h | ⟨e, h⟩ := runOp_trace_one o s
  · rw [h]
    exact Nat.le_succ _
  · rw [h, List.length_append, List.length_singleton]

/-- A list of operations appends at most as many events. -/
theorem runOps_trace_length (ops : List SeqOp) (s : State) :
    (runOps ops s).trace.length ≤ s.trace.length + ops.length := by
  induction ops generalizing s with
  | nil => exact Nat.le_refl _
  | cons o ops ih =>
    have hone := runOp_trace_length o s
    have hrest := ih (runOp o s)
    rw [runOps_cons, List.length_cons]
    omega

theorem length_beginOps_le (c : Bool) : (beginOps c).length ≤ 7 := by
  cases c <;> decide

/-- A released byte has the turnaround in place of the last low clock and its hold (R131). -/
theorem length_wrbyteOps (v : Byte) (rel : Bool) : (wrbyteOps v rel).length = if rel then 47 else 48 := by
  cases rel <;> rfl

theorem length_wrbyteOps_le (v : Byte) (rel : Bool) : (wrbyteOps v rel).length ≤ 48 := by
  rw [length_wrbyteOps]
  split <;> decide

theorem length_endOps : endOps.length = 2 := rfl

theorem length_rdbyteOps : rdbyteOps.length = 42 := rfl

theorem length_readSession_le (c : Bool) (cmd : Byte) : (readSession c cmd).length ≤ 441 := by
  have hbegin := length_beginOps_le c
  have hcmd := length_wrbyteOps_le cmd true
  rw [readSession, List.length_append, List.length_append, List.length_append, length_rdbyteOps, length_endOps]
  omega

theorem length_writeSession_le (c : Bool) (cmd v : Byte) : (writeSession c cmd v).length ≤ 441 := by
  have hbegin := length_beginOps_le c
  have hcmd := length_wrbyteOps_le cmd false
  have hdata := length_wrbyteOps_le v false
  rw [writeSession, List.length_append, List.length_append, List.length_append, length_endOps]
  omega

/-- A burst read stays below the bound by enough for the writing of the image. -/
theorem length_burstReadSession_le (c : Bool) (cmd : Byte) : (burstReadSession c cmd).length ≤ 440 := by
  have hbegin := length_beginOps_le c
  have hcmd := length_wrbyteOps_le cmd true
  have hbytes : (indices8.flatMap fun k => rdbyteOps ++ [SeqOp.bufferByte k]).length = 344 := by
    simp [indices8, length_rdbyteOps]
  rw [burstReadSession, List.length_append, List.length_append, List.length_append, hbytes, length_endOps]
  omega

/-- The longest request: BEGIN in an open session, nine bytes and END. -/
theorem length_burstWriteSession_le (c : Bool) (cmd : Byte) (b : Bytes8) :
    (burstWriteSession c cmd b).length ≤ 441 := by
  have hbegin := length_beginOps_le c
  have hcmd := length_wrbyteOps_le cmd false
  have hbytes : (indices8.flatMap fun k => wrbyteOps (byteAt b k) false).length = 384 := by
    simp [indices8, length_wrbyteOps]
  rw [burstWriteSession, List.length_append, List.length_append, List.length_append, hbytes, length_endOps]
  omega

theorem length_sequenceOf_le {i : Instr} {s : State} {ops : List SeqOp} (hseq : sequenceOf i s = .ok ops) :
    ops.length ≤ 441 := by
  cases requestOps_of_sequenceOf hseq with
  | beginSession => exact (length_beginOps_le _).trans (by decide)
  | endSession => exact length_endOps.trans_le (by decide)
  | wrbyte v rel => exact (length_wrbyteOps_le v rel).trans (by decide)
  | rdbyte => exact length_rdbyteOps.trans_le (by decide)
  | read cmd => exact length_readSession_le _ cmd
  | write cmd v => exact length_writeSession_le _ cmd v
  | burstRead cmd => exact (length_burstReadSession_le _ cmd).trans (by decide)
  | burstWrite cmd b => exact length_burstWriteSession_le _ cmd b
  | burstrd =>
    rw [burstrdOps, List.length_append]
    exact Nat.succ_le_succ (length_burstReadSession_le _ _)

theorem exists_exec_next (i : Instr) (s : State) : ∃ t, exec i s = .next t ∧ t.busy = false ∧ t.rspValid = true ∧
    t.trace.length ≤ s.trace.length + 441 := by
  cases hseq : sequenceOf i s with
  | error k => exact ⟨_, exec_of_error hseq, rfl, rfl, Nat.le_add_right _ _⟩
  | ok ops =>
    exact ⟨_, exec_of_ok hseq, rfl, rfl,
      (runOps_trace_length ops s).trans (Nat.add_le_add_left (length_sequenceOf_le hseq) _)⟩

theorem exists_takeRequest_next (p : Presented) (s : State) : ∃ t, takeRequest p s = .next t := by
  cases hd : decode p with
  | error e => exact ⟨_, takeRequest_of_decode_error hd s⟩
  | ok i =>
    obtain ⟨t, ht, -⟩ := exists_exec_next i s
    exact ⟨t, (takeRequest_of_decode_ok hd s).trans ht⟩

theorem exists_takeMidway_next (p : Presented) (n : Nat) (s : State) : ∃ t, takeMidway p n s = .next t := by
  cases hd : decode p with
  | error e => exact ⟨_, takeMidway_of_decode_error hd n s⟩
  | ok i =>
    cases hseq : sequenceOf i s with
    | error k => exact ⟨_, takeMidway_of_fault hd hseq n⟩
    | ok ops => exact ⟨_, takeMidway_of_ok hd hseq n⟩

theorem exists_nextAction_next (s : State) : ∃ t, nextAction s = .next t := by
  unfold nextAction
  split
  · exact ⟨_, rfl⟩
  · exact ⟨_, rfl⟩
  · exact ⟨_, rfl⟩
  · exact exists_takeRequest_next _ _
  · exact exists_takeMidway_next _ _ _

/-- Settles O42: a request runs a finite list of operations, of which the longest has 441, or takes a fault; and
nothing a host does has another outcome than a next state. -/
theorem everyRequestEnds : Obligations.EveryRequestEnds := by
  refine ⟨exists_exec_next, fun s => ?_⟩
  rw [step, hostStep]
  split
  · exact ⟨_, rfl⟩
  · exact exists_nextAction_next s

/-! ## What requests leave unwritten (R41, R165) -/

/-- Settles O43: the image is written by one operation, which no request but BURSTRD has. -/
theorem onlyBurstrdWritesImage : Obligations.OnlyBurstrdWritesImage := by
  intro i s t hi hexec
  obtain ⟨k, -, rfl⟩ | ⟨ops, hseq, rfl⟩ := exec_cases hexec
  · exact ⟨rfl, rfl⟩
  · rw [runRequest_eq]
    exact runOps_img ops (accept [] s) (commitImage_not_mem hi hseq)

/-- `t` has the data registers and the device's answers of `s`. -/
def SameData (s t : State) : Prop :=
  t.rdata = s.rdata ∧ t.device = s.device ∧ t.shift = s.shift ∧ t.burst = s.burst

theorem sameData_of_fault {i : Instr} {s t : State} {k : FaultKind} (h : exec i s = .next (afterFault k s))
    (hexec : exec i s = .next t) : SameData s t := by
  obtain rfl := Host.Outcome.next.inj (h.symm.trans hexec)
  exact ⟨rfl, rfl, rfl, rfl⟩

theorem sameData_of_afterRequest {i : Instr} {s t : State} {l : Lines} {u : PadTrace}
    (h : exec i s = .next (afterRequest l u s)) (hexec : exec i s = .next t) : SameData s t := by
  obtain rfl := Host.Outcome.next.inj (h.symm.trans hexec)
  exact ⟨rfl, rfl, rfl, rfl⟩

theorem sameData_wrbyte {v : Byte} {rel : Bool} {s t : State} (hexec : exec (.wrbyte v rel) s = .next t) :
    SameData s t := by
  cases hce : s.lines.ce with
  | false => exact sameData_of_fault (exec_wrbyte_of_closed hce) hexec
  | true =>
    cases hdir : s.lines.ioDir with
    | input => exact sameData_of_fault (exec_wrbyte_of_input hce hdir) hexec
    | output => exact sameData_of_afterRequest (exec_wrbyte_of_output v rel hce hdir) hexec

/-- Settles O44: each of these requests leaves what its lines and its trace say, and nothing else but the response. -/
theorem onlyReadsWriteRdata : Obligations.OnlyReadsWriteRdata := by
  rintro i s t (rfl | rfl | ⟨v, rel, rfl⟩ | ⟨a, v, rfl⟩ | ⟨b, rfl⟩ | ⟨b, rfl⟩ | ⟨r, v, rfl⟩ | ⟨r, v, rfl⟩) hexec
  · exact sameData_of_afterRequest (exec_beginSession s) hexec
  · exact sameData_of_afterRequest (exec_endSession s) hexec
  · exact sameData_wrbyte hexec
  · exact sameData_of_afterRequest (exec_of_writeSession rfl) hexec
  · exact sameData_of_afterRequest (exec_of_burstWriteSession rfl) hexec
  · exact sameData_of_afterRequest (exec_of_burstWriteSession rfl) hexec
  · exact sameData_of_afterRequest (exec_of_writeSession rfl) hexec
  · exact sameData_of_afterRequest (exec_of_writeSession rfl) hexec

/-! ## What only a reset undoes (R20, R37, R43) -/

/-- `t` follows `s` without a reset: the clock stays driven and the image stays valid once they are, the earlier
traces are the same, and the trace has only grown. -/
def GrowsFrom (s t : State) : Prop :=
  (s.lines.sclkOe = true → t.lines.sclkOe = true) ∧ (s.imgValid = true → t.imgValid = true) ∧
  t.past = s.past ∧ s.trace <+: t.trace

theorem growsFrom_refl (s : State) : GrowsFrom s s := ⟨id, id, rfl, List.prefix_rfl⟩

theorem GrowsFrom.trans {s t u : State} (h : GrowsFrom s t) (h' : GrowsFrom t u) : GrowsFrom s u := by
  obtain ⟨hoe, himg, hpast, htrace⟩ := h
  obtain ⟨hoe', himg', hpast', htrace'⟩ := h'
  exact ⟨hoe' ∘ hoe, himg' ∘ himg, hpast'.trans hpast, htrace.trans htrace'⟩

theorem growsFrom_emit (e : PadEvent) (s : State) : GrowsFrom s (emit e s) := by
  refine ⟨fun h => ?_, id, rfl, List.prefix_append _ _⟩
  cases e with
  | sclkOe => rfl
  | _ => exact h

theorem growsFrom_runOp (o : SeqOp) (s : State) : GrowsFrom s (runOp o s) := by
  cases o with
  | clearShift => exact growsFrom_refl s
  | latchRdata => exact growsFrom_refl s
  | bufferByte k => exact growsFrom_refl s
  | commitImage => exact ⟨id, fun _ => rfl, rfl, List.prefix_rfl⟩
  | sampleBit i => exact growsFrom_emit (.sample _) s
  | _ => exact growsFrom_emit _ s

theorem growsFrom_runOps (ops : List SeqOp) (s : State) : GrowsFrom s (runOps ops s) := by
  induction ops generalizing s with
  | nil => exact growsFrom_refl s
  | cons o ops ih => exact (growsFrom_runOp o s).trans (ih (runOp o s))

theorem growsFrom_complete (s : State) : GrowsFrom s (complete s) := by
  rw [complete_eq]
  exact growsFrom_runOps s.seq s

theorem growsFrom_step {s t : State} (hstep : step s = .next t) (hreset : resetNow s = false) : GrowsFrom s t := by
  obtain ⟨hrst, -⟩ | ⟨-, hcase⟩ := step_cases hstep
  · exact absurd (hreset.symm.trans hrst) Bool.false_ne_true
  obtain ⟨-, rfl⟩ | ⟨-, rest, rfl⟩ | ⟨-, k, rest, rfl⟩ | ⟨-, i, ops, rest, -, rfl⟩ | ⟨-, i, ops, n, rest, -, rfl⟩ := hcase
  · exact growsFrom_complete s
  · exact growsFrom_refl s
  · exact growsFrom_refl s
  · exact growsFrom_complete (accept ops { s with host := rest })
  · rw [runMidway_eq]
    exact growsFrom_runOps _ (accept [] { s with host := rest })

/-- Settles O45: no operation clears SCLK_OE or IMG_VALID. -/
theorem clockEnableAndImageValidStay : Obligations.ClockEnableAndImageValidStay := by
  intro s t hstep hreset
  obtain ⟨hoe, himg, -⟩ := growsFrom_step hstep hreset
  exact ⟨hoe, himg⟩

/-- Settles O46: operations append to the trace, and a reset state has it among the earlier ones. -/
theorem traceOnlyGrows : Obligations.TraceOnlyGrows := by
  refine fun s t hstep => ⟨fun hreset => ?_, fun hreset => ?_⟩
  · obtain ⟨-, -, hpast, u, hu⟩ := growsFrom_step hstep hreset
    exact ⟨hpast, u, hu.symm⟩
  · obtain ⟨rest, rfl⟩ := step_of_reset hstep hreset
    exact ⟨rfl, rfl⟩

end Sys2Proof.Machine
end

section
/-! PROOFS. What traces count (40_bus_driver.md R133, R139; 41_register_protocol.md R152 to R167) and the least time
they take (70_reset_and_hazards.md R250; 00_scope.md R11). -/

namespace Sys2Proof.Machine

/-! ## The parts of a trace: where they leave the clock, and their edges -/

theorem levelAfter_wrbyteTrace (level : Bool) (v : Byte) (rel : Bool) : levelAfter level (wrbyteTrace v rel) = rel := by
  cases rel <;> rfl

theorem levelAfter_rdbyteTrace (level : Bool) (x : Byte) : levelAfter level (rdbyteTrace x) = false := rfl

/-- The turnaround stands in place of the last falling edge (R133). -/
theorem fallingEdges_wrbyteTrace (v : Byte) (rel : Bool) :
    fallingEdges false (wrbyteTrace v rel) = if rel then 7 else 8 := by
  cases rel <;> simp [wrbyteTrace, wrbitTrace, indices8, fallingEdges]

/-- After a released command the clock is high already (R139). -/
theorem risingEdges_rdbyteTrace (level : Bool) (x : Byte) :
    risingEdges level (rdbyteTrace x) = if level then 7 else 8 := by
  cases level <;> simp [rdbyteTrace, rdbitTrace, indices8, risingEdges]

theorem fallingEdges_rdbyteTrace (level : Bool) (x : Byte) : fallingEdges level (rdbyteTrace x) = 8 := by
  simp [rdbyteTrace, rdbitTrace, indices8, fallingEdges]

/-- From a low clock, BEGIN has no edge. -/
theorem fallingEdges_beginTrace (c : Bool) : fallingEdges false (beginTrace c) = 0 := by
  cases c <;> rfl

/-- A row of parts, each with `m` rising and `n` falling edges from a low clock, which it leaves low. -/
theorem edges_flatMap {α : Type} {f : α → PadTrace} {m n : Nat} (hlevel : ∀ k, levelAfter false (f k) = false)
    (hrise : ∀ k, risingEdges false (f k) = m) (hfall : ∀ k, fallingEdges false (f k) = n) (ks : List α) :
    levelAfter false (ks.flatMap f) = false ∧ risingEdges false (ks.flatMap f) = m * ks.length ∧
      fallingEdges false (ks.flatMap f) = n * ks.length := by
  induction ks with
  | nil => exact ⟨rfl, rfl, rfl⟩
  | cons k ks ih =>
    obtain ⟨hl, hr, hf⟩ := ih
    rw [List.flatMap_cons, levelAfter_append, risingEdges_append, fallingEdges_append, hlevel, hrise, hfall, hl, hr, hf,
      List.length_cons, Nat.mul_succ, Nat.mul_succ]
    exact ⟨rfl, Nat.add_comm _ _, Nat.add_comm _ _⟩

theorem edges_rdbytes (xs : List Byte) :
    levelAfter false (xs.flatMap rdbyteTrace) = false ∧ risingEdges false (xs.flatMap rdbyteTrace) = 8 * xs.length ∧
      fallingEdges false (xs.flatMap rdbyteTrace) = 8 * xs.length :=
  edges_flatMap (levelAfter_rdbyteTrace false) (risingEdges_rdbyteTrace false) (fallingEdges_rdbyteTrace false) xs

theorem edges_wrbytes (vs : List Byte) :
    levelAfter false (vs.flatMap (wrbyteTrace · false)) = false ∧
      risingEdges false (vs.flatMap (wrbyteTrace · false)) = 8 * vs.length ∧
      fallingEdges false (vs.flatMap (wrbyteTrace · false)) = 8 * vs.length :=
  edges_flatMap (levelAfter_wrbyteTrace false · false) (risingEdges_wrbyteTrace · false)
    (fallingEdges_wrbyteTrace · false) vs

/-- A released command and the bytes read after it: of the RDBYTEs only the first starts with the clock high (R139). -/
theorem edges_command_rdbytes (c x : Byte) (more : List Byte) :
    risingEdges false (wrbyteTrace c true ++ (x :: more).flatMap rdbyteTrace) = 8 + 7 + 8 * more.length ∧
    fallingEdges false (wrbyteTrace c true ++ (x :: more).flatMap rdbyteTrace) = 7 + 8 * (more.length + 1) := by
  obtain ⟨-, hrise, hfall⟩ := edges_rdbytes more
  rw [List.flatMap_cons, risingEdges_append, risingEdges_append, fallingEdges_append, fallingEdges_append,
    levelAfter_wrbyteTrace, levelAfter_rdbyteTrace, risingEdges_wrbyteTrace, fallingEdges_wrbyteTrace,
    risingEdges_rdbyteTrace, fallingEdges_rdbyteTrace, hrise, hfall]
  simp only [if_true]
  omega

/-- Settles O25: the edges of a row of parts add up, each part counted from the level the one before it leaves. -/
theorem byteEdgeCounts : Obligations.ByteEdgeCounts :=
  ⟨fun v rel => ⟨risingEdges_wrbyteTrace v rel, fallingEdges_wrbyteTrace v rel⟩,
    fun x level => ⟨risingEdges_rdbyteTrace level x, fallingEdges_rdbyteTrace level x, sampleCount_rdbyteTrace x⟩,
    edges_command_rdbytes⟩

/-! ## Sessions (R152, R155, R160, R167) -/

/-- Eight bytes as a list, byte 0 first. -/
def bytesOf (b : Bytes8) : List Byte := indices8.map (byteAt b)

theorem rdbytesTrace_eq_flatMap (b : Bytes8) : rdbytesTrace b = (bytesOf b).flatMap rdbyteTrace := by
  rw [bytesOf, List.flatMap_map, rdbytesTrace]

theorem wrbytesTrace_eq_flatMap (b : Bytes8) : wrbytesTrace b = (bytesOf b).flatMap (wrbyteTrace · false) := by
  rw [bytesOf, List.flatMap_map, wrbytesTrace]

/-- A session: BEGIN, the bytes it carries, END. -/
def sessionTrace (ceWas : Bool) (carried : PadTrace) : PadTrace := beginTrace ceWas ++ carried ++ endTrace

theorem readTrace_eq_session (ceWas : Bool) (c x : Byte) :
    readTrace ceWas c x = sessionTrace ceWas (wrbyteTrace c true ++ [x].flatMap rdbyteTrace) := by
  rw [readTrace, sessionTrace, List.flatMap_singleton, List.append_assoc (beginTrace ceWas)]

theorem writeTrace_eq_session (ceWas : Bool) (c v : Byte) :
    writeTrace ceWas c v = sessionTrace ceWas ([c, v].flatMap (wrbyteTrace · false)) := by
  rw [writeTrace, sessionTrace, List.flatMap_cons, List.flatMap_singleton, List.append_assoc (beginTrace ceWas)]

theorem burstReadTrace_eq_session (ceWas : Bool) (c : Byte) (b : Bytes8) :
    burstReadTrace ceWas c b = sessionTrace ceWas (wrbyteTrace c true ++ (bytesOf b).flatMap rdbyteTrace) := by
  rw [burstReadTrace, sessionTrace, rdbytesTrace_eq_flatMap, List.append_assoc (beginTrace ceWas)]

theorem burstWriteTrace_eq_session (ceWas : Bool) (c : Byte) (b : Bytes8) :
    burstWriteTrace ceWas c b = sessionTrace ceWas ((c :: bytesOf b).flatMap (wrbyteTrace · false)) := by
  rw [burstWriteTrace, sessionTrace, wrbytesTrace_eq_flatMap, List.flatMap_cons, List.append_assoc (beginTrace ceWas)]

/-- From a low clock the edges of a session are those of the bytes it carries. -/
theorem edges_sessionTrace (ceWas : Bool) (t : PadTrace) :
    risingEdges false (sessionTrace ceWas t) = risingEdges false t ∧
      fallingEdges false (sessionTrace ceWas t) = fallingEdges false t := by
  rw [sessionTrace, risingEdges_append, risingEdges_append, fallingEdges_append, fallingEdges_append,
    risingEdges_beginTrace, fallingEdges_beginTrace, levelAfter_beginTrace, Nat.zero_add, Nat.zero_add]
  exact ⟨rfl, rfl⟩

/-- Settles O35: each composite is a session of one row of bytes, written or read. -/
theorem compositeEdgeCounts : Obligations.CompositeEdgeCounts := by
  intro ceWas c v b
  rw [readTrace_eq_session, writeTrace_eq_session, burstWriteTrace_eq_session]
  obtain ⟨hread, hread'⟩ := edges_command_rdbytes c v []
  obtain ⟨-, hwrite, hwrite'⟩ := edges_wrbytes [c, v]
  obtain ⟨hburst, hburst'⟩ := edges_command_rdbytes c b.b0 (bytesOf b).tail
  obtain ⟨-, hburstwr, hburstwr'⟩ := edges_wrbytes (c :: bytesOf b)
  refine ⟨?_, ?_, ?_, ?_, ?_, ?_, sampleCount_burstReadTrace _ _ _, ?_, ?_⟩
  · exact (edges_sessionTrace _ _).1.trans hread
  · exact (edges_sessionTrace _ _).2.trans hread'
  · exact (edges_sessionTrace _ _).1.trans hwrite
  · exact (edges_sessionTrace _ _).2.trans hwrite'
  · rw [burstReadTrace_eq_session]
    exact (edges_sessionTrace _ _).1.trans hburst
  · rw [burstReadTrace_eq_session]
    exact (edges_sessionTrace _ _).2.trans hburst'
  · exact (edges_sessionTrace _ _).1.trans hburstwr
  · exact (edges_sessionTrace _ _).2.trans hburstwr'

/-! ## The least time of a trace (R11, R250) -/

theorem minTime_flatMap {α : Type} (f : α → PadTrace) (ks : List α) :
    minTime (ks.flatMap f) = (ks.map fun k => minTime (f k)).sum := by
  induction ks with
  | nil => rfl
  | cons k ks ih => rw [List.flatMap_cons, minTime_append, ih, List.map_cons, List.sum_cons]

/-- A row of parts that all take the same time. -/
theorem minTime_flatMap_const {α : Type} {f : α → PadTrace} {n : Nat} (h : ∀ k, minTime (f k) = n) (ks : List α) :
    minTime (ks.flatMap f) = ks.length * n := by
  simp only [minTime_flatMap, h, List.map_const', List.sum_replicate, smul_eq_mul]

theorem minTime_beginTrace (ceWas : Bool) :
    minTime (beginTrace ceWas) = if ceWas then holdTime .ceOff + holdTime .ceSu else holdTime .ceSu := by
  cases ceWas <;> simp [beginTrace, minTime_cons, eventTime]

theorem minTime_endTrace : minTime endTrace = holdTime .ceOff := by
  simp [endTrace, minTime_cons, eventTime]

theorem minTime_wrbitTrace (v : Byte) (rel : Bool) (i : Fin 8) : minTime (wrbitTrace v rel i) =
    holdTime .dsu + holdTime .ckh + if rel && i == 7 then 0 else holdTime .ckl := by
  rw [wrbitTrace]
  split <;> simp [minTime_cons, eventTime, Nat.add_assoc]

theorem minTime_rdbitTrace (x : Byte) (i : Fin 8) : minTime (rdbitTrace x i) = holdTime .ckh + holdTime .ckl := by
  simp [rdbitTrace, minTime_cons, eventTime]

theorem minTime_wrbyteTrace (v : Byte) :
    minTime (wrbyteTrace v false) = 8 * (holdTime .dsu + holdTime .ckh + holdTime .ckl) :=
  minTime_flatMap_const (minTime_wrbitTrace v false) indices8

/-- A released byte has one low hold less (R131). -/
theorem minTime_wrbyteTrace_released (v : Byte) :
    minTime (wrbyteTrace v true) = 8 * (holdTime .dsu + holdTime .ckh) + 7 * holdTime .ckl := by
  have hbits : (indices8.map fun i => minTime (wrbitTrace v true i)).sum =
      8 * (holdTime .dsu + holdTime .ckh) + 7 * holdTime .ckl := by
    simp only [minTime_wrbitTrace, indices8, List.map_cons, List.map_nil, List.sum_cons, List.sum_nil, Bool.true_and,
      Fin.reduceBEq, BEq.rfl, Bool.false_eq_true, if_true, if_false]
    omega
  rw [wrbyteTrace, minTime_flatMap, hbits]

theorem minTime_rdbyteTrace (x : Byte) : minTime (rdbyteTrace x) = 8 * (holdTime .ckh + holdTime .ckl) :=
  minTime_flatMap_const (minTime_rdbitTrace x) indices8

theorem minTime_sessionTrace (t : PadTrace) :
    minTime (sessionTrace false t) = holdTime .ceSu + minTime t + holdTime .ceOff := by
  rw [sessionTrace, minTime_append, minTime_append, minTime_beginTrace, minTime_endTrace, if_neg Bool.false_ne_true]

/-- A session that writes the bytes `vs`, its command the first of them. -/
theorem minTime_session_wrbytes (vs : List Byte) :
    minTime (sessionTrace false (vs.flatMap (wrbyteTrace · false))) = holdTime .ceSu +
      vs.length * (8 * (holdTime .dsu + holdTime .ckh + holdTime .ckl)) + holdTime .ceOff := by
  rw [minTime_sessionTrace, minTime_flatMap_const minTime_wrbyteTrace]

/-- A session that reads the bytes `xs` after a released command. -/
theorem minTime_session_rdbytes (c : Byte) (xs : List Byte) :
    minTime (sessionTrace false (wrbyteTrace c true ++ xs.flatMap rdbyteTrace)) = holdTime .ceSu +
      (8 * (holdTime .dsu + holdTime .ckh) + 7 * holdTime .ckl + xs.length * (8 * (holdTime .ckh + holdTime .ckl))) +
      holdTime .ceOff := by
  rw [minTime_sessionTrace, minTime_append, minTime_wrbyteTrace_released, minTime_flatMap_const minTime_rdbyteTrace]

theorem bytesOf_length (b : Bytes8) : (bytesOf b).length = 8 := rfl

/-- Settles O59: the holds of a trace add up part by part. -/
theorem minimumDurations : Obligations.MinimumDurations := by
  refine ⟨fun p => ⟨?_, ?_⟩, fun ceWas c v b => ⟨minTime_beginTrace ceWas, minTime_endTrace, minTime_wrbyteTrace v,
    minTime_wrbyteTrace_released v, minTime_rdbyteTrace v, ?_, ?_, ?_, ?_⟩⟩
  · rw [holdTime]
    omega
  · rw [holdTime]
    omega
  · rw [readTrace_eq_session, minTime_session_rdbytes, List.length_singleton]
    omega
  · rw [writeTrace_eq_session, minTime_session_wrbytes, List.length_cons, List.length_singleton]
    omega
  · rw [burstReadTrace_eq_session, minTime_session_rdbytes, bytesOf_length]
    omega
  · rw [burstWriteTrace_eq_session, minTime_session_wrbytes, List.length_cons, bytesOf_length]
    omega

end Sys2Proof.Machine
end

section
/-! PROOFS. What the outside sees: STATUS and LINES (10_state.md R45, R47), the read port (R51), the pads and the host's
outputs (R30, R32, R33; 00_scope.md R12), and the words written out from the encodings (30_encoding.md R109). -/

namespace Sys2Proof.Machine

/-- Settles O9: the words are decoded. -/
theorem writtenWordsDecode : Obligations.WrittenWordsDecode := by
  unfold Obligations.WrittenWordsDecode
  decide

theorem dirBit_iff {d : IoDir} : dirBit d = true ↔ d = .output := decide_eq_true_iff

/-- Settles O56: a byte put together from bits has those bits. -/
theorem statusAndLinesBits : Obligations.StatusAndLinesBits := by
  refine ⟨fun s => bitOf_byteOfBits _ _ _ _ _ _ _ _, fun l d => ?_⟩
  obtain ⟨h0, h1, h2, h3, h4, h5, h6, h7⟩ := bitOf_byteOfBits l.ce l.sclk l.sclkOe (dirBit l.ioDir) l.ioOut d false false
  exact ⟨h0, h1, h2, by rw [← dirBit_iff, ← h3, linesByte], h4, h5, h6, h7⟩

theorem readReg_image (k : Fin 8) : readReg (BitVec.ofNat 4 (8 + k.val)) = .img k := by
  revert k
  decide

/-- Settles O57: each index is its register in the map, and LINES and RDATA are free only while a request runs. -/
theorem readPortMap : Obligations.ReadPortMap := by
  refine fun s draw => ⟨rfl, fun hready => ?_, fun hready => ?_, rfl, rfl, rfl, rfl, rfl, fun k => ?_⟩
  · exact if_neg (Bool.eq_false_iff.1 hready)
  · exact if_neg (Bool.eq_false_iff.1 hready)
  · rw [readPort, readReg_image]

/-- Settles O58: each signal is read off the state it shows. -/
theorem outputSignals : Obligations.OutputSignals :=
  ⟨fun _ _ => ⟨rfl, rfl, rfl, rfl, dirBit_iff⟩, fun _ => ⟨rfl, rfl, rfl, rfl, rfl, rfl, rfl, rfl⟩⟩

end Sys2Proof.Machine
end
